-- ==== Sys2Proof/Word.lean ====
section
/-! DEFINITION. The word, byte and byte-sequence types of the core (spec/00_scope.md R10). -/

namespace Sys2Proof

/-- `u64` of R10: an unsigned 64-bit word (R6, W = 64). -/
abbrev Word := BitVec 64

/-- `u8` of R10: a byte. -/
abbrev Byte := BitVec 8

/-- `Bytes` of R10: a finite byte sequence of any length; index 0 is the first byte. -/
abbrev Bytes := List Byte

/-- What the register LEN holds: LEN_W bits, at the spec's default of 64 (R6, R15). -/
abbrev LenWord := BitVec 64

/-- A rotation count 0 to 63: the six bits `bb[5:0]` of format XB (R53, R61). -/
abbrev RotCount := BitVec 6

/-- `zext_64(b)` of R10. -/
def zext64 (b : Byte) : Word := b.setWidth 64

end Sys2Proof
end

