-- ==== Sys2Proof/Config.lean ====
section
/-! DEFINITION. What is fixed for the machine (the constants of R6 and R68) and the free values of
the registers that a hardware reset leaves unspecified (R27, R111). -/

namespace Sys2Proof.Config

/-- C0 of R68. TESTED: the spec records that the known answer checks it (R86), and marks it general knowledge
(G1); unsafe: log entry 1. -/
def c0 : Word := 0x736f6d6570736575

/-- C1 of R68. TESTED: the spec records that the known answer checks it (R86), and marks it general knowledge
(G1); unsafe: log entry 1. -/
def c1 : Word := 0x646f72616e646f6d

/-- C2 of R68. TESTED: the spec records that the known answer checks it (R86), and marks it general knowledge
(G1); unsafe: log entry 1. -/
def c2 : Word := 0x6c7967656e657261

/-- C3 of R68. TESTED: the spec records that the known answer checks it (R86), and marks it general knowledge
(G1); unsafe: log entry 1. -/
def c3 : Word := 0x7465646279746573

/-- The domain separation constant, XORed into v2 before finalization (R6, R76). -/
def domain : Word := 0xff

/-- c of R6: the compression rounds of one absorb (R69). -/
def compressionRounds : Nat := 2

/-- d of R6: the finalization rounds (R76). -/
def finalizationRounds : Nat := 4

/-- A free word: what the `n`-th 64-bit register made unspecified by a hardware reset holds (R111).
No body: no proof can see it. Log entry 4; safe. -/
opaque freeWord : Nat → Word

/-- The free value of LEN after a hardware reset (R111). Log entry 4; safe. -/
opaque freeLen : Nat → LenWord

/-- The free value of a TAIL byte after a hardware reset (R111). Log entry 4; safe. -/
opaque freeByte : Nat → Byte

/-- The free value of NTAIL after a hardware reset (R111). Log entry 4; safe. -/
opaque freeCount : Nat → BitVec 3

end Sys2Proof.Config
end

