-- ==== Sys2Proof/Machine/State.lean ====
section
/-! DEFINITION. The state of the core (spec/10_state.md), the command and response port of
spec/30_encoding.md R43 and R44, and the ways a command can end. -/

namespace Sys2Proof.Machine

/-- The Key: the registers K[0] and K[1] (R13). -/
structure Key where
  k0 : Word
  k1 : Word
deriving DecidableEq, Repr

/-- Four words of mixing state (R14, R63): the registers V[0..3], or a command's working copy. -/
structure Mix where
  v0 : Word
  v1 : Word
  v2 : Word
  v3 : Word
deriving DecidableEq, Repr

/-- The exceptions of R94, each with the `info` its rule names (R96). An exception is not a fault of
the machine: it ends its command, and the machine goes on (R105, R106). -/
inductive Exception where
  /-- 0x01: the packet is malformed or its opcode reserved (R97). Raised by the decoder. -/
  | illegalCommand
  /-- 0x02: a key given as bytes is `len`, not 16, bytes long (R98). Raised by NEWB and HASH. -/
  | keyLength (len : Nat)
  /-- 0x03: fewer bytes than asked for from offset `off` of a buffer of `len` bytes (R99). -/
  | rangeViolation (off len : Nat)
  /-- 0x04: RESET, FEED, FEEDT or RESULT while HVALID = 0 (R100). -/
  | noHasher
deriving DecidableEq, Repr

/-- How a command ends: `respond OK(data)` with its data words, or `raise` (R11, R57). -/
inductive Reply where
  | ok (data : List Word)
  | error (e : Exception)
deriving DecidableEq, Repr

/-- What the outside world can do to the core (R44, R111). -/
inductive HostInput where
  /-- The host sends one whole command packet (R44). -/
  | packet (p : Bytes)
  /-- The hardware reset event (R111). -/
  | hardwareReset
deriving DecidableEq, Repr

/-- The whole state. The first six fields are the registers of R13 to R18; the rest is the command
port (R43, R44: log entry 3) and the model's own count of free values (log entry 4). -/
structure State where
  /-- K[0], K[1] (R13). -/
  k : Key
  /-- V[0..3] (R14). -/
  v : Mix
  /-- LEN, the count of bytes fed, modulo 2^LEN_W (R15). -/
  len : LenWord
  /-- TAIL[0..7] (R16); only the first NTAIL bytes mean anything. -/
  tail : Vector Byte 8
  /-- NTAIL, 0 to 7, held in 3 bits (R17). -/
  ntail : BitVec 3
  /-- HVALID (R18). -/
  hvalid : Bool
  /-- What the host presents next, oldest first (R8, R44). -/
  pending : List HostInput
  /-- The response packets sent so far, oldest first (R44, R57). -/
  responses : List Bytes
  /-- How many free values have been used: the model's own, not the spec's (log entry 4). -/
  freeIdx : Nat
deriving DecidableEq, Repr

/-- The ways the machine stops: none. Every packet gets a response and the core accepts the next
one (R44, R101, R106; spec/93: "There is no behaviour in this spec with treatment `stuck`"). -/
inductive Fault where
deriving DecidableEq, Repr

/-- The commands without a meaning. -/
inductive Refusal where
  /-- Raised by `exec` alone, for a command this model has not reached: no arm does so now.
  Safe: the model stops where the hardware goes on. -/
  | notModelled (mnemonic : String)
deriving DecidableEq, Repr

/-- The machine right after a hardware reset with nothing presented yet: HVALID = 0 (R27, R111), the
port idle (R113). Every other register is unspecified by R27 and U2 and is zero here.
DESIGN CHOICE, unsafe: log entry 2; no statement rests on these zeros. -/
def State.reset : State where
  k := ⟨0, 0⟩
  v := ⟨0, 0, 0, 0⟩
  len := 0
  tail := Vector.replicate 8 0
  ntail := 0
  hvalid := false
  pending := []
  responses := []
  freeIdx := 0

end Sys2Proof.Machine
end

