-- ==== Sys2Proof/Machine/Bytes.lean ====
section
/-! DEFINITION. Byte buffers and byte order (spec/20_memory.md R31 to R33, spec/40_primitives.md R62):
the one place where bytes become words and words become bytes. -/

namespace Sys2Proof.Machine

/-- `MemRead(buf, off, n)` of R31: the `n` bytes from offset `off`, or RangeViolation. The sum is of
natural numbers and does not wrap. -/
def memRead (buf : Bytes) (off n : Nat) : Except Exception Bytes :=
  if off + n ≤ buf.length then .ok ((buf.drop off).take n)
  else .error (.rangeViolation off buf.length)

/-- OR the bytes of `bs` into `w`, the first at byte position `i`, each later one a position up:
`w | zext_64(b) << (8*i)` of R62 and R75. -/
def orBytes (w : Word) (i : Nat) : Bytes → Word
  | [] => w
  | b :: bs => orBytes (w ||| (zext64 b <<< (8 * i))) (i + 1) bs

/-- `le64(s, off)` of R62: MemRead of 8 bytes, packed with byte 0 the least significant (R32). -/
def le64 (s : Bytes) (off : Nat) : Except Exception Word := do
  let bs ← memRead s off 8
  return orBytes 0 0 bs

/-- Byte `i` of a word: `x[8*i+7 : 8*i]` of R10. -/
def wordByte (x : Word) (i : Nat) : Byte := x.extractLsb' (8 * i) 8

/-- The 8 bytes of a word, least significant first (R46, R57). -/
def wordBytes (x : Word) : Bytes :=
  [wordByte x 0, wordByte x 1, wordByte x 2, wordByte x 3,
   wordByte x 4, wordByte x 5, wordByte x 6, wordByte x 7]

/-- Successive `MemWrite(TAIL, j, 1, b)` of R11: the bytes of `bs` to TAIL[j], TAIL[j+1], ....
Every use writes inside the 8 bytes (R73: `nt + n ≤ 7`, `nt + needed = 8`, `rem ≤ 7`). -/
def writeTail (t : Vector Byte 8) (j : Nat) : Bytes → Vector Byte 8
  | [] => t
  | b :: bs => writeTail (t.setIfInBounds j b) (j + 1) bs

end Sys2Proof.Machine
end

