-- ==== Sys2Proof/Syntax.lean ====
section
/-! DEFINITION. The abstract commands of spec/30_encoding.md R54: one constructor per row of
spec/opcode_table.json. In this spec a command is an instruction (R7). -/

namespace Sys2Proof

/-- The ten commands (R7, R54), with the typed operands of R54's column "abstract command". -/
inductive Instr where
  /-- NEW(k0, k1), R70. -/
  | new (k0 k1 : Word)
  /-- NEWB(key), R71. -/
  | newb (key : Bytes)
  /-- RESET, R72: the command, not the hardware reset. -/
  | reset
  /-- FEED(chunk), R73. -/
  | feed (chunk : Bytes)
  /-- FEEDT(text), R74: the text's bytes as the host encoded them. -/
  | feedt (text : Bytes)
  /-- RESULT, R77. -/
  | result
  /-- HASH(key, msg), R88: the key first (R87, conflict C3). -/
  | hash (key msg : Bytes)
  /-- ROUND(v0, v1, v2, v3), R66. -/
  | round (v0 v1 v2 v3 : Word)
  /-- LDLE64(buf, off), R65: `off` is a natural number (R52). -/
  | ldle64 (buf : Bytes) (off : Nat)
  /-- ROTL(x, b), R64: `b` is 0 to 63 by its type (R53, U4). -/
  | rotl (x : Word) (b : RotCount)
deriving DecidableEq, Repr

end Sys2Proof
end

