-- ==== Sys2Proof/WellFormed.lean ====
section
/-! DEFINITION. Which abstract commands have a packet: the two bounds of R56's last sentence. -/

namespace Sys2Proof

/-- A command a packet can carry: HASH's key is at most 255 bytes long (its length is one byte,
R50) and LDLE64's offset is below 2^64 (R52). Every other command has a packet (R56). -/
def Instr.wellFormed : Instr → Bool
  | .new _ _ => true
  | .newb _ => true
  | .reset => true
  | .feed _ => true
  | .feedt _ => true
  | .result => true
  | .hash key _ => decide (key.length ≤ 255)
  | .round _ _ _ _ => true
  | .ldle64 _ off => decide (off < 2 ^ 64)
  | .rotl _ _ => true

end Sys2Proof
end

