-- ==== Sys2Proof/Decode.lean ====
section
/-! DEFINITION. The decoder of spec/30_encoding.md R56, total on byte strings; the encoder written from
the formats R47 to R53; and the opcode table's rows as packets. -/

namespace Sys2Proof

open Sys2Proof.Machine (le64 wordBytes)

/-- Why a packet is `malformed` (R56). The core answers IllegalCommand to each (R97). -/
inductive Malformed where
  /-- A packet of length 0 (R45). -/
  | emptyPacket
  /-- Opcode 0x00 or 0x0B to 0xFF (R55). -/
  | reservedOpcode (op : Byte)
  /-- The length does not fit the opcode's format (R47 to R53). -/
  | wrongLength (op : Byte)
  /-- A bit of `bb[7:6]` is set in format XB (R53). -/
  | reservedBits (bb : Byte)
deriving DecidableEq, Repr

/-- A `u64` field of a packet at offset `o` (R46). The decoder has checked the length before. -/
def wordField (p : Bytes) (o : Nat) : Except Malformed Word :=
  match le64 p o with
  | .ok w => .ok w
  | .error _ => .error (.wrongLength (p.headD 0))

/-- 0x01, format K2 (R48). -/
def decodeNew (p : Bytes) : Except Malformed Instr :=
  if p.length = 17 then do
    let k0 ← wordField p 1
    let k1 ← wordField p 9
    return .new k0 k1
  else .error (.wrongLength 0x01)

/-- 0x03 and 0x06, format Z (R47). -/
def decodeZ (op : Byte) (i : Instr) (p : Bytes) : Except Malformed Instr :=
  if p.length = 1 then .ok i else .error (.wrongLength op)

/-- 0x07, format KM (R50): `klen = P[1]`, the key, and the rest. -/
def decodeHash (p : Bytes) : Except Malformed Instr :=
  match p with
  | _ :: klen :: rest =>
    if klen.toNat ≤ rest.length then .ok (.hash (rest.take klen.toNat) (rest.drop klen.toNat))
    else .error (.wrongLength 0x07)
  | _ => .error (.wrongLength 0x07)

/-- 0x08, format W4 (R51). -/
def decodeRound (p : Bytes) : Except Malformed Instr :=
  if p.length = 33 then do
    let v0 ← wordField p 1
    let v1 ← wordField p 9
    let v2 ← wordField p 17
    let v3 ← wordField p 25
    return .round v0 v1 v2 v3
  else .error (.wrongLength 0x08)

/-- 0x09, format OB (R52). -/
def decodeLdle64 (p : Bytes) : Except Malformed Instr :=
  if 9 ≤ p.length then do
    let off ← wordField p 1
    return .ldle64 (p.drop 9) off.toNat
  else .error (.wrongLength 0x09)

/-- 0x0A, format XB (R53): the count is `bb[5:0]`, and `bb[7:6]` must be 0. -/
def decodeRotl (p : Bytes) : Except Malformed Instr :=
  if p.length = 10 then do
    let x ← wordField p 1
    let bb := p.getD 9 0
    if bb.extractLsb' 6 2 = 0 then return .rotl x (bb.extractLsb' 0 6)
    else .error (.reservedBits bb)
  else .error (.wrongLength 0x0a)

/-- `decode(P)` of R56. It reads only the packet (R42, R56). -/
def decode (p : Bytes) : Except Malformed Instr :=
  match p with
  | [] => .error .emptyPacket
  | op :: body =>
    match op.toNat with
    | 0x01 => decodeNew p
    | 0x02 => .ok (.newb body)
    | 0x03 => decodeZ op .reset p
    | 0x04 => .ok (.feed body)
    | 0x05 => .ok (.feedt body)
    | 0x06 => decodeZ op .result p
    | 0x07 => decodeHash p
    | 0x08 => decodeRound p
    | 0x09 => decodeLdle64 p
    | 0x0a => decodeRotl p
    | _ => .error (.reservedOpcode op)

/-- The opcode byte of a command (R54). -/
def opcode : Instr → Byte
  | .new _ _ => 0x01
  | .newb _ => 0x02
  | .reset => 0x03
  | .feed _ => 0x04
  | .feedt _ => 0x05
  | .result => 0x06
  | .hash _ _ => 0x07
  | .round _ _ _ _ => 0x08
  | .ldle64 _ _ => 0x09
  | .rotl _ _ => 0x0a

/-- The operand bytes `P[1..len(P))` of a command's packet (R46 to R53). -/
def operandBytes : Instr → Bytes
  | .new k0 k1 => wordBytes k0 ++ wordBytes k1
  | .newb key => key
  | .reset => []
  | .feed chunk => chunk
  | .feedt text => text
  | .result => []
  | .hash key msg => BitVec.ofNat 8 key.length :: (key ++ msg)
  | .round v0 v1 v2 v3 => wordBytes v0 ++ wordBytes v1 ++ wordBytes v2 ++ wordBytes v3
  | .ldle64 buf off => wordBytes (BitVec.ofNat 64 off) ++ buf
  | .rotl x b => wordBytes x ++ [b.setWidth 8]

/-- The packet of a well-formed command (R45, R56: exactly one). -/
def encode (i : Instr) : Bytes := opcode i :: operandBytes i

/-- The `n` bytes of a row's bits, the first packet byte the least significant (log entry 11). -/
def rowBytes : Nat → Nat → Bytes
  | 0, _ => []
  | n + 1, w => BitVec.ofNat 8 w :: rowBytes n (w / 256)

/-- How long a packet the row's bits stand for: its format's one length, or for the formats of open
length the shortest packet whose command runs to its end on zeros (log entry 11, DESIGN CHOICE). -/
def rowLength (bs : Bytes) : Nat :=
  match (bs.headD 0).toNat with
  | 0x01 => 17
  | 0x02 => 17
  | 0x07 => 2 + (bs.getD 1 0).toNat
  | 0x08 => 33
  | 0x09 => 17
  | 0x0a => 10
  | _ => bs.length

/-- The packet of a row of spec/opcode_table.json: its bits, then zero bytes up to its length. -/
def rowPacket (nbits w : Nat) : Bytes :=
  let bs := rowBytes (nbits / 8) w
  bs ++ List.replicate (rowLength bs - bs.length) 0

/-- What the decoder reads from a row of spec/opcode_table.json whose bits are `w`. -/
def decodeTableWord (nbits w : Nat) : Option Instr := (decode (rowPacket nbits w)).toOption

end Sys2Proof
end

