-- ==== Sys2Proof/Machine/Sip.lean ====
section
/-! DEFINITION. The pure functions of the core: rotl and sipround (spec/40_primitives.md), init, absorb,
finalword and finalize (spec/41_hasher.md section 1). -/

namespace Sys2Proof.Machine

/-- `rotl(x, b)` of R61: `(x * 2^b) mod 2^64` below, `x div 2^(64 - b)` above; for `b = 0` the right
part is empty. The count is 0 to 63 by its type (U4). -/
def rotl (x : Word) (b : RotCount) : Word := (x <<< b.toNat) ||| (x >>> (64 - b.toNat))

/-- `sipround` of R63: the fourteen steps in the spec's order. -/
def sipround (s : Mix) : Mix :=
  let v0 := s.v0
  let v1 := s.v1
  let v2 := s.v2
  let v3 := s.v3
  let v0 := v0 + v1
  let v1 := rotl v1 13
  let v1 := v1 ^^^ v0
  let v0 := rotl v0 32
  let v2 := v2 + v3
  let v3 := rotl v3 16
  let v3 := v3 ^^^ v2
  let v0 := v0 + v3
  let v3 := rotl v3 21
  let v3 := v3 ^^^ v0
  let v2 := v2 + v1
  let v1 := rotl v1 17
  let v1 := v1 ^^^ v2
  let v2 := rotl v2 32
  ⟨v0, v1, v2, v3⟩

/-- `n` applications of sipround, one after another. -/
def siprounds : Nat → Mix → Mix
  | 0, v => v
  | n + 1, v => siprounds n (sipround v)

/-- `init(k0, k1)` of R68. -/
def init (k : Key) : Mix :=
  ⟨k.k0 ^^^ Config.c0, k.k1 ^^^ Config.c1, k.k0 ^^^ Config.c2, k.k1 ^^^ Config.c3⟩

/-- `absorb(v, m)` of R69: the same word into v3 before and into v0 after the compression rounds. -/
def absorb (v : Mix) (m : Word) : Mix :=
  let w := siprounds Config.compressionRounds { v with v3 := v.v3 ^^^ m }
  { w with v0 := w.v0 ^^^ m }

/-- `finalword(l8, t, nt)` of R75: the length byte on top, the first `nt` tail bytes below. -/
def finalword (l8 : Nat) (t : Bytes) (nt : Nat) : Word :=
  orBytes (zext64 (BitVec.ofNat 8 l8) <<< 56) 0 (t.take nt)

/-- `finalize(v, b)` of R76. -/
def finalize (v : Mix) (b : Word) : Word :=
  let w := absorb v b
  let w := siprounds Config.finalizationRounds { w with v2 := w.v2 ^^^ Config.domain }
  w.v0 ^^^ w.v1 ^^^ w.v2 ^^^ w.v3

/-- Absorb `n` whole words of `s`, from offset `off` in 8-byte strides, in increasing order: the
loops of R73 step 2 and R88 (log entry 8). Each load is le64's, with its check. -/
def absorbWords (s : Bytes) : Nat → Nat → Mix → Except Exception Mix
  | 0, _, v => .ok v
  | n + 1, off, v => do
    let w ← le64 s off
    absorbWords s n (off + 8) (absorb v w)

end Sys2Proof.Machine
end

