-- ==== Sys2Proof/Machine/Ops.lean ====
section
/-! DEFINITION. The named operations over the state: how a command ends (spec/60_exceptions.md R96),
register updates (spec/10_state.md R26), the hardware reset event, and the command port. -/

namespace Sys2Proof.Machine

/-- The outcome of a step of this machine. -/
abbrev Result := Host.Outcome State Fault Refusal

/-- The status code of an exception (R94). -/
def Exception.status : Exception → Byte
  | .illegalCommand => 0x01
  | .keyLength _ => 0x02
  | .rangeViolation _ _ => 0x03
  | .noHasher => 0x04

/-- The response packet of R57: status OK and the data words, each 8 bytes little-endian; or the
status of the exception alone, its `info` not sent (R96). -/
def Reply.packet : Reply → Bytes
  | .ok data => 0x00 :: data.flatMap wordBytes
  | .error e => [e.status]

/-- Send one response (R44 (b)). -/
def State.respond (s : State) (r : Reply) : State :=
  { s with responses := s.responses ++ [r.packet] }

/-- `raise E(info)` of R96, the one way an exception is taken: the response is the status, nothing
else happens, and there is nothing to return from (R105, R106). -/
def raise (e : Exception) (s : State) : Result := .next (s.respond (.error e))

/-- End a command's body at `s`: commit its new state and respond OK with its data, or raise from
`s` itself, so that a command that raises has written nothing (R96). -/
def finish (s : State) (body : Except Exception (State × List Word)) : Result :=
  match body with
  | .ok (t, data) => .next (t.respond (.ok data))
  | .error e => raise e s

/-- Begin a message under the key held in K: V = init(K), LEN = 0, NTAIL = 0 (R70, R72). TAIL's
bytes stay: with NTAIL = 0 none of them means anything (R16; log entry 6). -/
def State.startMessage (s : State) : State := { s with v := init s.k, len := 0, ntail := 0 }

/-- Construct a hasher: load the key, begin a message, HVALID = 1 (R70). -/
def State.construct (s : State) (k : Key) : State := { s with k := k, hvalid := true }.startMessage

/-- The commit of FEED (R73): V, LEN, TAIL and NTAIL. -/
def State.commitFeed (s : State) (v : Mix) (len : LenWord) (tail : Vector Byte 8) (ntail : Nat) : State :=
  { s with v := v, len := len, tail := tail, ntail := BitVec.ofNat 3 ntail }

/-- The hardware reset event (R111): HVALID = 0 and every other register unspecified, that is a free
value each (log entry 4). No response; what the host presented after it stays presented. -/
def State.hardwareReset (s : State) : State :=
  { s with
    k := ⟨Config.freeWord s.freeIdx, Config.freeWord (s.freeIdx + 1)⟩
    v := ⟨Config.freeWord (s.freeIdx + 2), Config.freeWord (s.freeIdx + 3),
          Config.freeWord (s.freeIdx + 4), Config.freeWord (s.freeIdx + 5)⟩
    len := Config.freeLen s.freeIdx
    tail := Vector.ofFn fun j => Config.freeByte (s.freeIdx + j.val)
    ntail := Config.freeCount s.freeIdx
    hvalid := false
    freeIdx := s.freeIdx + 8 }

/-- Take what the host presents next off the port (R44: in the order sent). -/
def State.setPending (s : State) (rest : List HostInput) : State := { s with pending := rest }

/-- Present a packet before all that is presented. -/
def State.presentFirst (s : State) (p : Bytes) : State :=
  { s with pending := .packet p :: s.pending }

end Sys2Proof.Machine
end

