-- ==== Sys2Proof/Machine/Flags.lean ====
section
/-! DEFINITION. The one status bit, HVALID (spec/10_state.md R18, R22): there are no condition codes
and no arithmetic flags, so no command computes a flag. -/

namespace Sys2Proof.Machine

/-- The first thing RESET, FEED, FEEDT and RESULT check: NoHasher when HVALID = 0 (R100). -/
def requireHasher (s : State) : Except Exception Unit :=
  if s.hvalid then .ok () else .error .noHasher

end Sys2Proof.Machine
end

