-- ==== Sys2Proof/Machine/Operands.lean ====
section
/-! DEFINITION. The one operand form that execution checks: a key given as bytes. Every other operand
is typed by the decoder (spec/30_encoding.md R47 to R53). -/

namespace Sys2Proof.Machine

/-- A byte key: exactly 16 bytes, else KeyLength; split into two little-endian words
(R71, R87, R98). The key is never truncated, padded or partly read. -/
def byteKey (key : Bytes) : Except Exception Key :=
  if key.length = 16 then do
    let k0 ← le64 key 0
    let k1 ← le64 key 8
    return ⟨k0, k1⟩
  else .error (.keyLength key.length)

end Sys2Proof.Machine
end

