-- ==== Sys2Proof/Machine/Hasher.lean ====
section
/-! DEFINITION. The commands of the incremental hasher (spec/41_hasher.md): NEW, NEWB, RESET, FEED, FEEDT,
RESULT. -/

namespace Sys2Proof.Machine

/-- NEW (R70). -/
def execNew (k0 k1 : Word) (s : State) : Result := finish s (.ok (s.construct ⟨k0, k1⟩, []))

/-- NEWB (R71): the check of the key, then exactly as NEW. -/
def execNewb (key : Bytes) (s : State) : Result :=
  finish s do
    let k ← byteKey key
    return (s.construct k, [])

/-- RESET (R72): K is read and kept. -/
def execReset (s : State) : Result :=
  finish s do
    requireHasher s
    return (s.startMessage, [])

/-- Steps 2 and 3 of R73 and the commit: absorb the whole words of `chunk` from offset `off` on, then
keep the 0 to 7 bytes that remain at TAIL[0], TAIL[1], .... `v` and `t` are the working copies. -/
def feedFrom (chunk : Bytes) (off : Nat) (v : Mix) (t : Vector Byte 8) (newlen : LenWord) (s : State) :
    Except Exception State := do
  let nb := (chunk.length - off) / 8
  let v ← absorbWords chunk nb off v
  let off := off + 8 * nb
  let rem := chunk.length - off
  return s.commitFeed v newlen (writeTail t 0 (chunk.drop off)) rem

/-- FEED's body (R73) on a constructed hasher: step 1 completes a partly filled tail, or appends and
stops; the rest is `feedFrom`. -/
def feedBody (chunk : Bytes) (s : State) : Except Exception State :=
  let n := chunk.length
  let newlen := s.len + BitVec.ofNat 64 n
  let nt := s.ntail.toNat
  if nt = 0 then feedFrom chunk 0 s.v s.tail newlen s
  else
    let needed := 8 - nt
    if n < needed then .ok (s.commitFeed s.v newlen (writeTail s.tail nt chunk) (nt + n))
    else do
      let t := writeTail s.tail nt (chunk.take needed)
      let w ← le64 t.toList 0
      feedFrom chunk needed (absorb s.v w) t newlen s

/-- FEED (R73). -/
def execFeed (chunk : Bytes) (s : State) : Result :=
  finish s do
    requireHasher s
    let t ← feedBody chunk s
    return (t, [])

/-- FEEDT (R74): exactly as FEED of the text's bytes. -/
def execFeedt (text : Bytes) (s : State) : Result :=
  finish s do
    requireHasher s
    let t ← feedBody text s
    return (t, [])

/-- RESULT (R77): the digest of what has been fed; no register is written. -/
def execResult (s : State) : Result :=
  finish s do
    requireHasher s
    let b := finalword (s.len.toNat % 256) s.tail.toList s.ntail.toNat
    return (s, [finalize s.v b])

end Sys2Proof.Machine
end

