-- ==== Sys2Proof/Machine/OneShot.lean ====
section
/-! DEFINITION. The command of the one-shot authenticator (spec/42_oneshot.md): HASH. -/

namespace Sys2Proof.Machine

/-- HASH (R88): the digest of a whole message under a key, from locals only (R91). The count of
whole words is `len div 8` (R89, conflict C1). -/
def execHash (key msg : Bytes) (s : State) : Result :=
  finish s do
    let k ← byteKey key
    let L := msg.length
    let nb := L / 8
    let v ← absorbWords msg nb 0 (init k)
    let r := L - 8 * nb
    let b := finalword (L % 256) (msg.drop (8 * nb)) r
    return (s, [finalize v b])

end Sys2Proof.Machine
end

