-- ==== Sys2Proof/Machine/Primitives.lean ====
section
/-! DEFINITION. The commands of the leaf units (spec/40_primitives.md section 2): ROUND, LDLE64, ROTL.
They read and write no register and do not consult HVALID. -/

namespace Sys2Proof.Machine

/-- ROUND (R66): the four words in the order v0, v1, v2, v3; the registers V are not involved. -/
def execRound (v0 v1 v2 v3 : Word) (s : State) : Result :=
  let r := sipround ⟨v0, v1, v2, v3⟩
  finish s (.ok (s, [r.v0, r.v1, r.v2, r.v3]))

/-- LDLE64 (R65): the comparison is of natural numbers (R31). -/
def execLdle64 (buf : Bytes) (off : Nat) (s : State) : Result :=
  finish s do
    let w ← le64 buf off
    return (s, [w])

/-- ROTL (R64). -/
def execRotl (x : Word) (b : RotCount) (s : State) : Result := finish s (.ok (s, [rotl x b]))

end Sys2Proof.Machine
end

