-- ==== Sys2Proof/Machine/Dispatch.lean ====
section
/-! DEFINITION. Every command's meaning, one arm per row of spec/opcode_table.json. -/

namespace Sys2Proof.Machine

def exec (i : Instr) (s : State) : Host.Outcome State Fault Refusal :=
  match i with
  | .new k0 k1 => Sys2Proof.Machine.execNew k0 k1 s
  | .newb key => Sys2Proof.Machine.execNewb key s
  | .reset => Sys2Proof.Machine.execReset s
  | .feed chunk => Sys2Proof.Machine.execFeed chunk s
  | .feedt text => Sys2Proof.Machine.execFeedt text s
  | .result => Sys2Proof.Machine.execResult s
  | .hash key msg => Sys2Proof.Machine.execHash key msg s
  | .round v0 v1 v2 v3 => Sys2Proof.Machine.execRound v0 v1 v2 v3 s
  | .ldle64 buf off => Sys2Proof.Machine.execLdle64 buf off s
  | .rotl x b => Sys2Proof.Machine.execRotl x b s

end Sys2Proof.Machine
end

