-- ==== Sys2Proof/Machine/Port.lean ====
section
/-! DEFINITION. What the core does with what the host presents (spec/30_encoding.md R44, R56;
spec/70_reset_and_hazards.md R111): called by the step. -/

namespace Sys2Proof.Machine

/-- A command packet: decode, then execute; a malformed packet raises IllegalCommand before any look
at HVALID (R56, R97, R104). -/
def runPacket (p : Bytes) (s : State) : Result :=
  match decode p with
  | .ok i => exec i s
  | .error _ => raise .illegalCommand s

/-- One input of the host, already taken off the port. -/
def runInput (x : HostInput) (s : State) : Result :=
  match x with
  | .packet p => runPacket p s
  | .hardwareReset => .next s.hardwareReset

end Sys2Proof.Machine
end

