-- ==== Sys2Proof/Machine/Step.lean ====
section
/-! DEFINITION. One step of the core: the next host input, whole (spec/00_scope.md R9). -/

namespace Sys2Proof.Machine

/-- Take the next host input off the port and run it; with none presented the core is idle and keeps
all its state (R109, R113, R121; log entry 3). -/
def step (s : State) : Host.Outcome State Fault Refusal :=
  match s.pending with
  | [] => .next s
  | x :: rest => runInput x (s.setPending rest)

/-- `s` with a row of spec/opcode_table.json presented as the next command packet (log entry 11). -/
def State.withFetchWord (s : State) (nbits w : Nat) : State := s.presentFirst (rowPacket nbits w)

end Sys2Proof.Machine
end

