-- ==== Sys2Proof/Safety.lean ====
section
/-! DEFINITION. The terms claims are stated in: the reference function of spec/41_hasher.md R83, the
closed form and the state equality of the hasher (spec/10_state.md R19, R20; U3), which packets are
malformed (R55, R97), and runs of commands (R121). None of it is used by the machine. -/

namespace Sys2Proof

open Sys2Proof.Machine

/-- `le64(s, off)` as R62 writes it out, for a buffer known to have its 8 bytes. -/
def wordAt (s : Bytes) (off : Nat) : Word :=
  zext64 (s.getD off 0) ||| (zext64 (s.getD (off + 1) 0) <<< 8) |||
    (zext64 (s.getD (off + 2) 0) <<< 16) ||| (zext64 (s.getD (off + 3) 0) <<< 24) |||
    (zext64 (s.getD (off + 4) 0) <<< 32) ||| (zext64 (s.getD (off + 5) 0) <<< 40) |||
    (zext64 (s.getD (off + 6) 0) <<< 48) ||| (zext64 (s.getD (off + 7) 0) <<< 56)

/-- Absorb the complete 8-byte words of `m`, in order: `len(m) div 8` absorbs (R20, R83). -/
def absorbAll (v : Mix) (m : Bytes) : Mix :=
  (List.range (m.length / 8)).foldl (fun v i => absorb v (wordAt m (8 * i))) v

/-- The 0 to 7 bytes of `m` after its last complete word (R20). -/
def remainder (m : Bytes) : Bytes := m.drop (8 * (m.length / 8))

/-- `siphash24(k0, k1, M)` of R83. -/
def siphash24 (k : Key) (m : Bytes) : Word :=
  finalize (absorbAll (Machine.init k) m) (finalword (m.length % 256) (remainder m) (m.length % 8))

/-- TAIL[0..NTAIL), the tail bytes that mean something (R16). -/
def liveTail (s : State) : Bytes := s.tail.toList.take s.ntail.toNat

/-- The same hasher, as U3 says states are to be compared: K, V, LEN, NTAIL, HVALID and
TAIL[0..NTAIL). -/
structure SameHasher (s t : State) : Prop where
  k : t.k = s.k
  v : t.v = s.v
  len : t.len = s.len
  ntail : t.ntail = s.ntail
  tail : liveTail t = liveTail s
  hvalid : t.hvalid = s.hvalid

/-- The closed form of R20: a constructed hasher that has been fed exactly `m` since the last NEW,
NEWB or RESET. -/
structure Represents (s : State) (m : Bytes) : Prop where
  hvalid : s.hvalid = true
  v : s.v = absorbAll (Machine.init s.k) m
  len : s.len = BitVec.ofNat 64 m.length
  ntail : s.ntail.toNat = m.length % 8
  tail : liveTail s = remainder m

/-- R19 and R20 as an invariant: a constructed hasher is in the closed form of some message. -/
def Coherent (s : State) : Prop := s.hvalid = true → ∃ m, Represents s m

/-- The message since the last NEW, NEWB or RESET (R20) after a command, from the one before it: NEW,
NEWB of a 16-byte key and RESET begin anew, FEED and FEEDT append, and every other command, a NEWB
that raises among them, keeps it. -/
def messageAfter (i : Instr) (m : Bytes) : Bytes :=
  match i with
  | .new _ _ => []
  | .newb key => if key.length = 16 then [] else m
  | .reset => []
  | .feed chunk => m ++ chunk
  | .feedt text => m ++ text
  | .result => m
  | .hash _ _ => m
  | .round _ _ _ _ => m
  | .ldle64 _ _ => m
  | .rotl _ _ => m

/-- The key of the last NEW or NEWB (R20) after a command, from the one before it. -/
def keyAfter (i : Instr) (k : Key) : Key :=
  match i with
  | .new k0 k1 => ⟨k0, k1⟩
  | .newb key => if key.length = 16 then ⟨wordAt key 0, wordAt key 8⟩ else k
  | .reset => k
  | .feed _ => k
  | .feedt _ => k
  | .result => k
  | .hash _ _ => k
  | .round _ _ _ _ => k
  | .ldle64 _ _ => k
  | .rotl _ _ => k

/-- `t` is a constructed hasher under the key `k` that has been fed exactly `m` (R20). -/
def Holds (t : State) (k : Key) (m : Bytes) : Prop := t.k = k ∧ Represents t m

/-- The packets that no command has (R55, R95's first column). -/
def IllegalPacket : Bytes → Prop
  | [] => True
  | op :: body =>
    match op.toNat with
    | 0x01 => body.length ≠ 16
    | 0x02 => False
    | 0x03 => body ≠ []
    | 0x04 => False
    | 0x05 => False
    | 0x06 => body ≠ []
    | 0x07 => match body with
      | [] => True
      | klen :: rest => rest.length < klen.toNat
    | 0x08 => body.length ≠ 32
    | 0x09 => body.length < 8
    | 0x0a => body.length ≠ 9 ∨ 64 ≤ (body.getD 8 0).toNat
    | _ => True

/-- Commands executed one after another (R40, R121), each from the state the one before it left. -/
def execAll : List Instr → State → Result
  | [], s => .next s
  | i :: is, s =>
    match exec i s with
    | .next t => execAll is t
    | .fault r => .fault r
    | .refused r => .refused r

/-- An OK response packet of R57 that carries the words `data`: status 0x00, then each word 8 bytes
little-endian, and nothing more. -/
def Carries (q : Bytes) (data : List Word) : Prop :=
  q.length = 1 + 8 * data.length ∧ q[0]? = some 0x00 ∧
    ∀ i w, data[i]? = some w → wordAt q (1 + 8 * i) = w

/-- What FEED of `chunk` leaves (R73): V with the completed words of the live tail and the chunk
absorbed, LEN with the chunk's length added, the bytes left over as the new tail; K, HVALID and the
rest of the port as before; the response OK with no data. -/
structure AfterFeed (s t : State) (chunk : Bytes) : Prop where
  v : t.v = absorbAll s.v (liveTail s ++ chunk)
  len : t.len = s.len + BitVec.ofNat 64 chunk.length
  ntail : t.ntail.toNat = (s.ntail.toNat + chunk.length) % 8
  tail : liveTail t = remainder (liveTail s ++ chunk)
  k : t.k = s.k
  hvalid : t.hvalid = s.hvalid
  responses : t.responses = s.responses ++ [[0x00]]
  pending : t.pending = s.pending
  freeIdx : t.freeIdx = s.freeIdx

/-- R56's table, with its own offsets into the packet; `none` is the verdict `malformed`. -/
def decodeR56 (p : Bytes) : Option Instr :=
  match p[0]? with
  | none => none
  | some op =>
    if op = 0x01 then
      if p.length = 17 then some (.new (wordAt p 1) (wordAt p 9)) else none
    else if op = 0x02 then some (.newb (p.drop 1))
    else if op = 0x03 then if p.length = 1 then some .reset else none
    else if op = 0x04 then some (.feed (p.drop 1))
    else if op = 0x05 then some (.feedt (p.drop 1))
    else if op = 0x06 then if p.length = 1 then some .result else none
    else if op = 0x07 then
      if 2 ≤ p.length ∧ 2 + (p.getD 1 0).toNat ≤ p.length then
        some (.hash ((p.drop 2).take (p.getD 1 0).toNat) (p.drop (2 + (p.getD 1 0).toNat)))
      else none
    else if op = 0x08 then
      if p.length = 33 then some (.round (wordAt p 1) (wordAt p 9) (wordAt p 17) (wordAt p 25)) else none
    else if op = 0x09 then
      if 9 ≤ p.length then some (.ldle64 (p.drop 9) (wordAt p 1).toNat) else none
    else if op = 0x0a then
      if p.length = 10 ∧ (p.getD 9 0).toNat < 64 then
        some (.rotl (wordAt p 1) (BitVec.ofNat 6 (p.getD 9 0).toNat))
      else none
    else none

/-- What a step leaves of a hasher that held the key `k` and the message `m`, by the input it takes:
the key and message after the command; the same after a malformed packet (R97) or an idle step; and
no hasher after a hardware reset (R111). -/
def HoldsAfterInput (pending : List HostInput) (k : Key) (m : Bytes) (t : State) : Prop :=
  match pending with
  | [] => Holds t k m
  | .hardwareReset :: _ => t.hvalid = false
  | .packet p :: _ =>
    match decodeR56 p with
    | none => Holds t k m
    | some i => Holds t (keyAfter i k) (messageAfter i m)

/-- The status byte R95's table gives a command executed at a state: 0x00 when it raises nothing. -/
def statusOf (i : Instr) (s : State) : Byte :=
  match i with
  | .new _ _ => 0x00
  | .newb key => if key.length = 16 then 0x00 else 0x02
  | .reset => if s.hvalid then 0x00 else 0x04
  | .feed _ => if s.hvalid then 0x00 else 0x04
  | .feedt _ => if s.hvalid then 0x00 else 0x04
  | .result => if s.hvalid then 0x00 else 0x04
  | .hash key _ => if key.length = 16 then 0x00 else 0x02
  | .round _ _ _ _ => 0x00
  | .ldle64 buf off => if off + 8 ≤ buf.length then 0x00 else 0x03
  | .rotl _ _ => 0x00

/-- The status byte of the response to a packet: IllegalCommand first, else the command's own
(R95, R104). -/
def packetStatus (p : Bytes) (s : State) : Byte :=
  match decodeR56 p with
  | none => 0x01
  | some i => statusOf i s

end Sys2Proof
end

