-- ==== Sys2Proof/Certificates/Slice0/Obligations.lean ====
section
/-! DEFINITION. The statements for the provers, from the numbered rules of spec/. None rests on a value of
State.reset that the spec does not give (log entry 2) or on a TAIL byte beyond NTAIL (log entry 6). -/

open Sys2Proof Sys2Proof.Machine

/-! ## Encoding and decoding (spec/30_encoding.md) -/

/-- R56, last sentence: a well-formed command's packet decodes to it. -/
def Obligations.DecodeOfEncode : Prop :=
  ∀ i : Instr, i.wellFormed = true → decode (encode i) = .ok i

/-- R56, last sentence: a packet that decodes is the one packet of its command, which is well-formed. -/
def Obligations.EncodeOfDecode : Prop :=
  ∀ (p : Bytes) (i : Instr), decode p = .ok i → i.wellFormed = true ∧ encode i = p

/-- R56: the decoder is the table of R56, with that table's offsets, lengths and reserved bits. -/
def Obligations.DecoderFollowsTable : Prop := ∀ p : Bytes, (decode p).toOption = decodeR56 p

/-- R97: exactly the packets the rule names raise IllegalCommand, before any look at HVALID; no
register is written. Every other packet decodes. -/
def Obligations.IllegalPacketsRaise : Prop :=
  (∀ (s : State) (p : Bytes) (rest : List HostInput), s.pending = .packet p :: rest → IllegalPacket p →
    step s = .next { s with pending := rest, responses := s.responses ++ [[0x01]] }) ∧
  ∀ p : Bytes, ¬ IllegalPacket p → ∃ i, decode p = .ok i

/-- Packets written out from the formats R48 (NEW), R49 (FEEDT), R50 (HASH), R52 (LDLE64) and R53 (ROTL)
under R54's opcodes, and the commands they stand for. The ROTL packet is also that of
spec/95_test_vectors.md section 2 and P5 command 21; the others are this model's samples. -/
def Obligations.SamplePacketsDecode : Prop :=
  (∀ (k0 k1 : Word), decode (0x01 :: (wordBytes k0 ++ wordBytes k1)) = .ok (.new k0 k1)) ∧
  (∀ text : Bytes, decode (0x05 :: text) = .ok (.feedt text)) ∧
  decode [0x0a, 0x01, 0x00, 0x00, 0x00, 0x00, 0x00, 0x00, 0x00, 0x3f] = .ok (.rotl 1 63) ∧
  decode [0x09, 0x01, 0x00, 0x00, 0x00, 0x00, 0x00, 0x00, 0x00, 0x00, 0x01, 0x02] =
    .ok (.ldle64 [0x00, 0x01, 0x02] 1) ∧
  decode [0x07, 0x02, 0xaa, 0xbb, 0x61] = .ok (.hash [0xaa, 0xbb] [0x61])

/-- R46, R71: the packets of NEW and of NEWB of the same key differ in the opcode byte only, and the
two commands do the same. -/
def Obligations.WordKeyIsByteKey : Prop :=
  ∀ (k0 k1 : Word) (s : State),
    (encode (.new k0 k1)).tail = (encode (.newb (wordBytes k0 ++ wordBytes k1))).tail ∧
    exec (.newb (wordBytes k0 ++ wordBytes k1)) s = exec (.new k0 k1) s

/-! ## The step and the port (R43, R44, R57, R111) -/

/-- R9, R44: a step runs the decoded command, and around it only takes the packet off the port. -/
def Obligations.StepRunsDecodedCommand : Prop :=
  ∀ (s : State) (p : Bytes) (rest : List HostInput) (i : Instr),
    s.pending = .packet p :: rest → decode p = .ok i → step s = exec i { s with pending := rest }

/-- R109, R121: with nothing presented the core is idle and keeps all its state (log entry 3). -/
def Obligations.IdleKeepsState : Prop := ∀ s : State, s.pending = [] → step s = .next s

/-- R44 (b), R57: every packet, whatever its bytes, takes one step to a next state with exactly one
more response, of a status 0x00 to 0x04, of 1, 9 or 33 bytes, and of 1 byte unless the status is OK. -/
def Obligations.OneResponsePerPacket : Prop :=
  ∀ (s : State) (p : Bytes) (rest : List HostInput), s.pending = .packet p :: rest →
    ∃ (t : State) (status : Byte) (data : Bytes), step s = .next t ∧ t.pending = rest ∧
      t.responses = s.responses ++ [status :: data] ∧ status.toNat ≤ 4 ∧
      (data.length = 0 ∨ data.length = 8 ∨ data.length = 32) ∧ (status ≠ 0x00 → data = [])

/-- R101, R106, and the end of spec/93 part 1 ("There is no behaviour in this spec with treatment
`stuck`"): the machine never stops, and a command's part of the port is one response. -/
def Obligations.NothingStops : Prop :=
  (∀ s : State, ∃ t, step s = .next t) ∧
  ∀ (i : Instr) (s : State), ∃ t q, exec i s = .next t ∧ t.responses = s.responses ++ [q] ∧
    t.pending = s.pending ∧ t.freeIdx = s.freeIdx

/-- R111, R112: the hardware reset event clears HVALID, answers nothing, and leaves what is presented
after it; the next FEED, FEEDT, RESULT or RESET raises NoHasher. That the event is presented on the
port is the model's own (log entries 4 and 10). -/
def Obligations.HardwareResetClearsValid : Prop :=
  ∀ (s : State) (rest : List HostInput), s.pending = .hardwareReset :: rest →
    ∃ t, step s = .next t ∧ t.hvalid = false ∧ t.pending = rest ∧ t.responses = s.responses ∧
      ∀ chunk : Bytes, ∀ i ∈ [Instr.feed chunk, .feedt chunk, .result, .reset],
        exec i t = .next { t with responses := t.responses ++ [[0x04]] }

/-- R27, R113, R114: after reset HVALID is 0 and the port idle, and a host that breaks the boot
requirement gets NoHasher, the state otherwise as it was. -/
def Obligations.ResetNeedsConstruction : Prop :=
  State.reset.hvalid = false ∧ State.reset.pending = [] ∧ State.reset.responses = [] ∧
  ∀ chunk : Bytes, ∀ i ∈ [Instr.feed chunk, .feedt chunk, .result, .reset],
    step { State.reset with pending := [.packet (encode i)] } =
      .next { State.reset with responses := [[0x04]] }

/-! ## Bytes and the leaf functions (spec/20_memory.md, spec/40_primitives.md) -/

/-- R31: MemRead answers exactly the bytes asked for, in order, or RangeViolation(off, len(buf)). -/
def Obligations.MemReadInBounds : Prop :=
  ∀ (buf : Bytes) (off n : Nat),
    (off + n ≤ buf.length → ∃ bs, memRead buf off n = .ok bs ∧ bs.length = n ∧
      ∀ i, i < n → bs[i]? = buf[off + i]?) ∧
    (buf.length < off + n → memRead buf off n = .error (.rangeViolation off buf.length))

/-- R62: byte `i` of le64(s, off) is s[off + i]; with fewer than 8 bytes there it raises. -/
def Obligations.LoadedWordBytes : Prop :=
  ∀ (s : Bytes) (off : Nat),
    (off + 8 ≤ s.length → ∃ w, le64 s off = .ok w ∧
      ∀ i, i < 8 → s[off + i]? = some (w.extractLsb' (8 * i) 8)) ∧
    (s.length < off + 8 → le64 s off = .error (.rangeViolation off s.length))

/-- R61: bit (i + b) mod 64 of rotl(x, b) is bit i of x; its arithmetic form; two rotations add. -/
def Obligations.RotlMovesBits : Prop :=
  (∀ (x : Word) (b : RotCount) (i : Nat), i < 64 →
    (rotl x b).getLsbD ((i + b.toNat) % 64) = x.getLsbD i) ∧
  (∀ (x : Word) (b : RotCount), b ≠ 0 →
    (rotl x b).toNat = (x.toNat * 2 ^ b.toNat) % 2 ^ 64 + x.toNat / 2 ^ (64 - b.toNat)) ∧
  (∀ x : Word, rotl x 0 = x) ∧
  ∀ (x : Word) (a b : RotCount), rotl (rotl x a) b = rotl x (a + b)

/-- R63: sipround is the fourteen steps, with the rotation of a 64-bit vector in place of rotl. -/
def Obligations.SiproundSteps : Prop :=
  ∀ v0 v1 v2 v3 : Word, sipround ⟨v0, v1, v2, v3⟩ =
    let a0 := v0 + v1
    let a1 := v1.rotateLeft 13 ^^^ a0
    let b0 := a0.rotateLeft 32
    let a2 := v2 + v3
    let a3 := v3.rotateLeft 16 ^^^ a2
    let c0 := b0 + a3
    let b3 := a3.rotateLeft 21 ^^^ c0
    let b2 := a2 + a1
    let b1 := a1.rotateLeft 17 ^^^ b2
    ⟨c0, b1, b2.rotateLeft 32, b3⟩

/-- R67 (a), (c): sipround fixes the zero state and is a bijection on 4-tuples. -/
def Obligations.SiproundBijective : Prop :=
  sipround ⟨0, 0, 0, 0⟩ = ⟨0, 0, 0, 0⟩ ∧ Function.Bijective sipround

/-- R68, R69, R76 in terms of sipround alone. The last clause of init gives the constants the values
that R68 gives them (log entry 1); no other clause rests on those values. -/
def Obligations.MixingFunctions : Prop :=
  (∀ k0 k1 : Word, Machine.init ⟨k0, k1⟩ =
    ⟨k0 ^^^ Config.c0, k1 ^^^ Config.c1, k0 ^^^ Config.c2, k1 ^^^ Config.c3⟩) ∧
  Machine.init ⟨0, 0⟩ =
    ⟨0x736f6d6570736575, 0x646f72616e646f6d, 0x6c7967656e657261, 0x7465646279746573⟩ ∧
  (∀ (v : Mix) (m : Word), absorb v m =
    let w := sipround (sipround ⟨v.v0, v.v1, v.v2, v.v3 ^^^ m⟩)
    ⟨w.v0 ^^^ m, w.v1, w.v2, w.v3⟩) ∧
  ∀ (v : Mix) (b : Word), finalize v b =
    let w := absorb v b
    let w := sipround (sipround (sipround (sipround ⟨w.v0, w.v1, w.v2 ^^^ 0xff, w.v3⟩)))
    w.v0 ^^^ w.v1 ^^^ w.v2 ^^^ w.v3

/-- R75: byte 7 of the finalization word is the length byte, bytes 0 to nt-1 the tail bytes, the
bytes between them zero. -/
def Obligations.FinalWordBytes : Prop :=
  ∀ (l8 : Nat) (t : Bytes) (nt : Nat), l8 < 256 → nt ≤ 7 → nt ≤ t.length →
    (finalword l8 t nt).extractLsb' 56 8 = BitVec.ofNat 8 l8 ∧
    (∀ i, i < nt → t[i]? = some ((finalword l8 t nt).extractLsb' (8 * i) 8)) ∧
    ∀ i, nt ≤ i → i < 7 → (finalword l8 t nt).extractLsb' (8 * i) 8 = 0

/-! ## The commands of the leaf units -/

/-- R64: ROTL answers the rotated word and writes no register, at every state. -/
def Obligations.RotlAnswersRotation : Prop :=
  ∀ (x : Word) (b : RotCount) (s : State), ∃ q y, Carries q [y] ∧
    (∀ i, i < 64 → y.getLsbD ((i + b.toNat) % 64) = x.getLsbD i) ∧
    exec (.rotl x b) s = .next { s with responses := s.responses ++ [q] }

/-- R65: LDLE64 answers the word at the offset when 8 bytes are there, else RangeViolation; it writes
no register either way. -/
def Obligations.Ldle64AnswersWord : Prop :=
  ∀ (buf : Bytes) (off : Nat) (s : State),
    (off + 8 ≤ buf.length → ∃ q, Carries q [wordAt buf off] ∧
      exec (.ldle64 buf off) s = .next { s with responses := s.responses ++ [q] }) ∧
    (buf.length < off + 8 →
      exec (.ldle64 buf off) s = .next { s with responses := s.responses ++ [[0x03]] })

/-- R66: ROUND answers the four words of sipround in order; the registers V are not involved. -/
def Obligations.RoundAnswersSipround : Prop :=
  ∀ (v0 v1 v2 v3 : Word) (s : State), ∃ q w0 w1 w2 w3, Carries q [w0, w1, w2, w3] ∧
    sipround ⟨v0, v1, v2, v3⟩ = ⟨w0, w1, w2, w3⟩ ∧
    exec (.round v0 v1 v2 v3) s = .next { s with responses := s.responses ++ [q] }

/-! ## The commands of the hasher (spec/41_hasher.md) -/

/-- R70: NEW loads K, initialises V, clears LEN and NTAIL, sets HVALID, and changes nothing else, at
every state. -/
def Obligations.NewConstructsHasher : Prop :=
  ∀ (k0 k1 : Word) (s : State), exec (.new k0 k1) s = .next
    { s with
      k := ⟨k0, k1⟩
      v := ⟨k0 ^^^ Config.c0, k1 ^^^ Config.c1, k0 ^^^ Config.c2, k1 ^^^ Config.c3⟩
      len := 0, ntail := 0, hvalid := true
      responses := s.responses ++ [[0x00]] }

/-- R71: NEWB of 16 bytes does as NEW of their two little-endian words; of any other length it raises
KeyLength and changes no register. -/
def Obligations.NewbConstructsHasher : Prop :=
  ∀ (key : Bytes) (s : State),
    (key.length = 16 → exec (.newb key) s = .next
      { s with
        k := ⟨wordAt key 0, wordAt key 8⟩
        v := ⟨wordAt key 0 ^^^ Config.c0, wordAt key 8 ^^^ Config.c1,
              wordAt key 0 ^^^ Config.c2, wordAt key 8 ^^^ Config.c3⟩
        len := 0, ntail := 0, hvalid := true
        responses := s.responses ++ [[0x00]] }) ∧
    (key.length ≠ 16 → exec (.newb key) s = .next { s with responses := s.responses ++ [[0x02]] })

/-- R72: RESET restarts under the key it keeps, or raises NoHasher and changes no register. TAIL is
among what it leaves as it was (R26's row; log entry 6: with NTAIL = 0 its bytes mean nothing). -/
def Obligations.ResetRestartsMessage : Prop :=
  ∀ s : State,
    (s.hvalid = true → exec .reset s = .next
      { s with
        v := ⟨s.k.k0 ^^^ Config.c0, s.k.k1 ^^^ Config.c1, s.k.k0 ^^^ Config.c2, s.k.k1 ^^^ Config.c3⟩
        len := 0, ntail := 0
        responses := s.responses ++ [[0x00]] }) ∧
    (s.hvalid = false → exec .reset s = .next { s with responses := s.responses ++ [[0x04]] })

/-- R73: FEED completes, in all its paths, with V, LEN, NTAIL and the live tail as the rule computes
them and nothing else changed; an empty chunk changes no register; without a hasher it raises. -/
def Obligations.FeedAbsorbsChunk : Prop :=
  ∀ (chunk : Bytes) (s : State),
    (s.hvalid = true → ∃ t, exec (.feed chunk) s = .next t ∧ AfterFeed s t chunk) ∧
    (s.hvalid = true → exec (.feed []) s = .next { s with responses := s.responses ++ [[0x00]] }) ∧
    (s.hvalid = false → exec (.feed chunk) s = .next { s with responses := s.responses ++ [[0x04]] })

/-- R74: FEEDT is FEED of the text's bytes: it completes as FEED does, and differs in nothing. -/
def Obligations.FeedtIsFeed : Prop :=
  ∀ (text : Bytes) (s : State), exec (.feedt text) s = exec (.feed text) s ∧
    (s.hvalid = true → ∃ t, exec (.feedt text) s = .next t ∧ AfterFeed s t text) ∧
    (s.hvalid = false → exec (.feedt text) s = .next { s with responses := s.responses ++ [[0x04]] })

/-- R77: RESULT answers the digest of what V, LEN, TAIL and NTAIL hold and writes no register, or
raises NoHasher. -/
def Obligations.ResultAnswersDigest : Prop :=
  ∀ s : State,
    (s.hvalid = true → ∃ q,
      Carries q [finalize s.v (finalword (s.len.toNat % 256) s.tail.toList s.ntail.toNat)] ∧
      exec .result s = .next { s with responses := s.responses ++ [q] }) ∧
    (s.hvalid = false → exec .result s = .next { s with responses := s.responses ++ [[0x04]] })

/-- R70, corner case: NEW with the key already held has the effect of RESET. -/
def Obligations.NewOfHeldKeyIsReset : Prop :=
  ∀ s : State, s.hvalid = true → exec (.new s.k.k0 s.k.k1) s = exec .reset s

/-- R40 (c), R70, R112: construction discards everything before it: after NEW of one key any two cores
hold the same hasher, whatever they held. -/
def Obligations.ConstructionForgetsHistory : Prop :=
  ∀ (k0 k1 : Word) (s s' : State), ∃ t t', exec (.new k0 k1) s = .next t ∧
    exec (.new k0 k1) s' = .next t' ∧ SameHasher t t' ∧ Represents t []

/-! ## The one-shot authenticator (spec/42_oneshot.md) -/

/-- R88: HASH of a 16-byte key answers siphash24 of the message, at every state, with or without a
hasher; any other key raises KeyLength. It writes no register either way. -/
def Obligations.HashAnswersDigest : Prop :=
  ∀ (key msg : Bytes) (s : State),
    (key.length = 16 → ∃ q, Carries q [siphash24 ⟨wordAt key 0, wordAt key 8⟩ msg] ∧
      exec (.hash key msg) s = .next { s with responses := s.responses ++ [q] }) ∧
    (key.length ≠ 16 → exec (.hash key msg) s = .next { s with responses := s.responses ++ [[0x02]] })

/-- R91 for HASH; R26's rows and R64, R65, R66 for ROTL, LDLE64 and ROUND: the response depends on the command alone,
and no register is read or written, whether the command succeeds or raises. -/
def Obligations.StatelessCommands : Prop :=
  ∀ (key msg buf : Bytes) (off : Nat) (v0 v1 v2 v3 x : Word) (b : RotCount),
    ∀ i ∈ [Instr.hash key msg, .round v0 v1 v2 v3, .ldle64 buf off, .rotl x b],
      ∃ q, ∀ s : State, exec i s = .next { s with responses := s.responses ++ [q] }

/-! ## Exceptions (spec/60_exceptions.md) -/

/-- R96: a command whose response is not OK has written no register, and its response is the status
byte alone; the same of a packet, whether the decoder or the command raised. -/
def Obligations.RaisingWritesNothing : Prop :=
  (∀ (i : Instr) (s t : State) (status : Byte) (data : Bytes), exec i s = .next t →
    t.responses = s.responses ++ [status :: data] → status ≠ 0x00 →
    t = { s with responses := s.responses ++ [[status]] }) ∧
  ∀ (s t : State) (p : Bytes) (rest : List HostInput) (status : Byte) (data : Bytes),
    s.pending = .packet p :: rest → step s = .next t →
    t.responses = s.responses ++ [status :: data] → status ≠ 0x00 →
    t = { s with pending := rest, responses := s.responses ++ [[status]] }

/-- R95, R104: the status of the response to any packet is IllegalCommand if it does not decode, else
what R95's row of its command says; so only LDLE64 ever answers RangeViolation (R99). -/
def Obligations.StatusFollowsCauseTable : Prop :=
  ∀ (s : State) (p : Bytes) (rest : List HostInput), s.pending = .packet p :: rest →
    ∃ t data, step s = .next t ∧ t.responses = s.responses ++ [packetStatus p s :: data]

/-- R100: RESET, FEED, FEEDT and RESULT raise NoHasher exactly when HVALID = 0. -/
def Obligations.NoHasherExactly : Prop :=
  ∀ (s : State) (chunk : Bytes), ∀ i ∈ [Instr.reset, .feed chunk, .feedt chunk, .result],
    (s.hvalid = false → exec i s = .next { s with responses := s.responses ++ [[0x04]] }) ∧
    (s.hvalid = true → ∃ t data, exec i s = .next t ∧ t.responses = s.responses ++ [0x00 :: data])

/-- R102: exceptions depend only on the command and on HVALID, so a command that raised raises again
if repeated unchanged. -/
def Obligations.RaisingRepeats : Prop :=
  ∀ (i : Instr) (s t : State) (status : Byte), exec i s = .next t → status ≠ 0x00 →
    t.responses = s.responses ++ [[status]] →
    exec i t = .next { t with responses := t.responses ++ [[status]] } ∧
    ∀ u : State, u.hvalid = s.hvalid → exec i u = .next { u with responses := u.responses ++ [[status]] }

/-! ## The register access table and what cannot be observed (spec/10_state.md) -/

/-- R26: what each command leaves untouched: K by all but NEW and NEWB; V, LEN and NTAIL by all but
those, RESET, FEED and FEEDT; TAIL by all but FEED and FEEDT; HVALID by all but NEW and NEWB, and none
clears it (R18). -/
def Obligations.AccessTableFrame : Prop :=
  ∀ (i : Instr) (s t : State), exec i s = .next t →
    ((∀ k0 k1, i ≠ .new k0 k1) → (∀ key, i ≠ .newb key) → t.k = s.k ∧ t.hvalid = s.hvalid) ∧
    ((∀ k0 k1, i ≠ .new k0 k1) → (∀ key, i ≠ .newb key) → i ≠ .reset → (∀ c, i ≠ .feed c) →
      (∀ c, i ≠ .feedt c) → t.v = s.v ∧ t.len = s.len ∧ t.ntail = s.ntail) ∧
    ((∀ c, i ≠ .feed c) → (∀ c, i ≠ .feedt c) → t.tail = s.tail) ∧
    (s.hvalid = true → t.hvalid = true) ∧ t.pending = s.pending ∧ t.freeIdx = s.freeIdx ∧
    ∃ q, t.responses = s.responses ++ [q]

/-- R13: every command but NEW, NEWB and RESET neither reads nor writes K: under another key it does
the same to everything else and answers the same, so the host cannot read the key back through it. -/
def Obligations.KeyIsNotObserved : Prop :=
  ∀ (i : Instr) (s t : State) (k : Key), (∀ k0 k1, i ≠ .new k0 k1) → (∀ key, i ≠ .newb key) →
    i ≠ .reset → exec i s = .next t → exec i { s with k := k } = .next { t with k := k }

/-- R16, U3: the TAIL bytes beyond NTAIL are never read before they are written: from the same hasher
every command answers the same and leaves the same hasher. -/
def Obligations.DeadTailIsNotObserved : Prop :=
  ∀ (i : Instr) (s s' : State), SameHasher s s' →
    ∃ t t' q, exec i s = .next t ∧ exec i s' = .next t' ∧ SameHasher t t' ∧
      t.responses = s.responses ++ [q] ∧ t'.responses = s'.responses ++ [q]

/-! ## Required properties and the closed form (spec/41_hasher.md section 5, spec/10_state.md R19, R20) -/

/-- R20: the closed form, for all ten commands and for every step. NEW, and NEWB of a 16-byte key, start
the empty message under their key at every state; from a hasher that holds a key and a message each
command leaves one that holds keyAfter and messageAfter; and so does every step, whatever the host
presents, with no hasher left after a hardware reset. -/
def Obligations.ClosedFormOfMessage : Prop :=
  (∀ (k0 k1 : Word) (s : State), ∃ t, exec (.new k0 k1) s = .next t ∧ Holds t ⟨k0, k1⟩ []) ∧
  (∀ (key : Bytes) (s : State), key.length = 16 →
    ∃ t, exec (.newb key) s = .next t ∧ Holds t ⟨wordAt key 0, wordAt key 8⟩ []) ∧
  (∀ (i : Instr) (s : State) (m : Bytes), Represents s m →
    ∃ t, exec i s = .next t ∧ Holds t (keyAfter i s.k) (messageAfter i m)) ∧
  ∀ (s t : State) (m : Bytes), Represents s m → step s = .next t → HoldsAfterInput s.pending s.k m t

/-- R83: RESULT answers siphash24 of the key held and the message fed, of any length. -/
def Obligations.ResultIsReference : Prop :=
  ∀ (s : State) (m : Bytes), Represents s m → ∃ q, Carries q [siphash24 s.k m] ∧
    exec .result s = .next { s with responses := s.responses ++ [q] }

/-- R19: every step, whatever the host presents, keeps a constructed hasher in the closed form of some
message: the live tail is the last NTAIL bytes fed, and every earlier byte has been absorbed. -/
def Obligations.StepKeepsClosedForm : Prop :=
  ∀ s t : State, Coherent s → step s = .next t → Coherent t

/-- R27: the invariant of StepKeepsClosedForm holds after reset, and with HVALID = 0 in general. -/
def Obligations.ResetIsCoherent : Prop := Coherent State.reset ∧ ∀ s : State, s.hvalid = false → Coherent s

/-- R17, R20: in a coherent state with a hasher, NTAIL is LEN mod 8. -/
def Obligations.TailCountIsLengthModEight : Prop :=
  ∀ s : State, Coherent s → s.hvalid = true → s.ntail.toNat = s.len.toNat % 8

/-- R78: two RESULTs with no feed between them answer the same, and change no register. -/
def Obligations.ReadIsIdempotent : Prop :=
  ∀ s : State, s.hvalid = true → ∃ q, execAll [.result, .result] s =
    .next { s with responses := s.responses ++ [q, q] }

/-- R15: RESULT reads LEN modulo 256 and nothing else of it, so the width of LEN shows in no response
(log entry 5). -/
def Obligations.LengthReadModulo256 : Prop :=
  ∀ (s : State) (n : LenWord), n.toNat % 256 = s.len.toNat % 256 →
    ∃ q, exec .result s = .next { s with responses := s.responses ++ [q] } ∧
      exec .result { s with len := n } = .next { s with len := n, responses := s.responses ++ [q] }

/-- R79, R90: for any 16-byte key and any partition of a message, feeding the parts, feeding the whole
and the one-shot HASH answer the same digest, siphash24 of the message. -/
def Obligations.ChunkingInvariance : Prop :=
  ∀ (key : Bytes) (chunks : List Bytes) (s : State), key.length = 16 →
    ∃ q, Carries q [siphash24 ⟨wordAt key 0, wordAt key 8⟩ chunks.flatten] ∧
      (∃ t, execAll (.newb key :: (chunks.map Instr.feed ++ [.result])) s = .next t ∧
        t.responses = s.responses ++ (List.replicate (chunks.length + 1) [0x00] ++ [q])) ∧
      (∃ t, execAll [.newb key, .feed chunks.flatten, .result] s = .next t ∧
        t.responses = s.responses ++ [[0x00], [0x00], q]) ∧
      exec (.hash key chunks.flatten) s = .next { s with responses := s.responses ++ [q] }

/-- R79 from every state with a hasher, in mid-message too: feeding two chunks leaves the hasher that
feeding their concatenation leaves. -/
def Obligations.FeedOfConcatenation : Prop :=
  ∀ (a b : Bytes) (s : State), s.hvalid = true → ∃ t t', execAll [.feed a, .feed b] s = .next t ∧
    exec (.feed (a ++ b)) s = .next t' ∧ SameHasher t t'

/-- R80: what was fed before a RESET has no influence on a digest read after it. -/
def Obligations.ResetIsolation : Prop :=
  ∀ (s : State) (m1 m2 : Bytes), s.hvalid = true → ∃ q,
    (∃ t, execAll [.feed m1, .reset, .feed m2, .result] s = .next t ∧
      t.responses = s.responses ++ [[0x00], [0x00], [0x00], q]) ∧
    ∀ u : State, ∃ t, execAll [.new s.k.k0 s.k.k1, .feed m2, .result] u = .next t ∧
      t.responses = u.responses ++ [[0x00], [0x00], q]

/-- R81: the digest of the empty message is well-defined, and is finalize(init(K[0], K[1]), 0). -/
def Obligations.EmptyMessageDigest : Prop :=
  ∀ s : State, s.hvalid = true → ∃ q t, Carries q [finalize (Machine.init s.k) 0] ∧
    execAll [.reset, .result] s = .next t ∧ t.responses = s.responses ++ [[0x00], q]

/-- R86, R93: the source's known answer, on both paths, at every state. -/
def Obligations.KnownAnswer : Prop :=
  ∀ s : State,
    (∃ t, execAll [.newb ((List.range 16).map (BitVec.ofNat 8)),
        .feed ((List.range 15).map (BitVec.ofNat 8)), .result] s = .next t ∧
      t.responses = s.responses ++
        [[0x00], [0x00], [0x00, 0xe5, 0x45, 0xbe, 0x49, 0x61, 0xca, 0x29, 0xa1]]) ∧
    exec (.hash ((List.range 16).map (BitVec.ofNat 8)) ((List.range 15).map (BitVec.ofNat 8))) s =
      .next { s with responses := s.responses ++
        [[0x00, 0xe5, 0x45, 0xbe, 0x49, 0x61, 0xca, 0x29, 0xa1]] }
end

