-- ==== Sys2Proof/Laws/Bytes.lean ====
section
/-! SUPPORT. What the byte-buffer operations can do: one lemma per operation of Machine/Bytes.lean. -/

namespace Sys2Proof.Laws

open Sys2Proof.Machine

theorem memRead_of_le {buf : Bytes} {off n : Nat} (h : off + n ≤ buf.length) :
    memRead buf off n = .ok ((buf.drop off).take n) := if_pos h

theorem memRead_of_lt {buf : Bytes} {off n : Nat} (h : buf.length < off + n) :
    memRead buf off n = .error (.rangeViolation off buf.length) := if_neg (Nat.not_le.mpr h)

theorem take_eight_drop {s : Bytes} {off : Nat} (h : off + 8 ≤ s.length) :
    (s.drop off).take 8 = [s.getD off 0, s.getD (off + 1) 0, s.getD (off + 2) 0, s.getD (off + 3) 0,
      s.getD (off + 4) 0, s.getD (off + 5) 0, s.getD (off + 6) 0, s.getD (off + 7) 0] := by
  apply List.ext_getElem
  · simp; omega
  · intro i h1 h2
    have : i < 8 := by simpa using h2
    interval_cases i <;> simp [List.getD_eq_getElem?_getD] <;> rw [List.getElem?_eq_getElem (by omega)] <;> rfl

/-- le64 in range is R62's formula. -/
theorem le64_of_le {s : Bytes} {off : Nat} (h : off + 8 ≤ s.length) : le64 s off = .ok (wordAt s off) := by
  simp only [le64, memRead_of_le h, take_eight_drop h, bind, Except.bind, pure, Except.pure, orBytes,
    wordAt]
  simp

/-- le64 out of range is RangeViolation. -/
theorem le64_of_lt {s : Bytes} {off : Nat} (h : s.length < off + 8) :
    le64 s off = .error (.rangeViolation off s.length) := by
  simp only [le64, memRead_of_lt h, bind, Except.bind]

@[simp] theorem wordBytes_length (w : Word) : (wordBytes w).length = 8 := by simp [wordBytes]

theorem wordAt_append_right (a b : Bytes) (off : Nat) : wordAt (a ++ b) (a.length + off) = wordAt b off := by
  have (i : Nat) : (a ++ b).getD (a.length + off + i) 0 = b.getD (off + i) 0 := by
    rw [List.getD_append_right _ _ _ _ (by omega)]; congr 1; omega
  have h0 := this 0
  simp only [Nat.add_zero] at h0
  simp only [wordAt, h0, this]

theorem wordAt_append_left {a : Bytes} (b : Bytes) {off : Nat} (h : off + 8 ≤ a.length) :
    wordAt (a ++ b) off = wordAt a off := by
  have (i : Nat) (hi : i < 8) : (a ++ b).getD (off + i) 0 = a.getD (off + i) 0 :=
    List.getD_append _ _ _ _ (by omega)
  simp only [wordAt, show (a ++ b).getD off 0 = a.getD off 0 from this 0 (by omega), this 1 (by omega), this 2 (by omega),
    this 3 (by omega), this 4 (by omega), this 5 (by omega), this 6 (by omega), this 7 (by omega)]

/-- Bytes and words agree: a word laid out by `wordBytes` is read back (R46, R57). -/
theorem wordAt_wordBytes (w : Word) : wordAt (wordBytes w) 0 = w := by
  apply BitVec.eq_of_getLsbD_eq
  intro i hi
  simp only [wordAt, wordBytes, wordByte, zext64]
  simp
  interval_cases i <;> simp

/-- The 64 bits of a `u64` packet field after `pre` (R46). -/
theorem le64_field (pre post : Bytes) (w : Word) : le64 (pre ++ (wordBytes w ++ post)) pre.length = .ok w := by
  have h := wordAt_append_right pre (wordBytes w ++ post) 0
  rw [Nat.add_zero] at h
  rw [le64_of_le (by simp), h, wordAt_append_left _ (by simp), wordAt_wordBytes]

/-- The packet decoder's word fields are le64's (R46). -/
theorem wordField_field (pre post : Bytes) (w : Word) :
    wordField (pre ++ (wordBytes w ++ post)) pre.length = .ok w := by simp [wordField, le64_field]

theorem wordField_of_le {p : Bytes} {o : Nat} (h : o + 8 ≤ p.length) : wordField p o = .ok (wordAt p o) := by
  simp [wordField, le64_of_le h]

/-- A run of words laid out one after another is read back word by word. -/
theorem wordAt_flatMap (pre : Bytes) (ws : List Word) (i : Nat) (w : Word) (h : ws[i]? = some w) :
    wordAt (pre ++ ws.flatMap wordBytes) (pre.length + 8 * i) = w := by
  induction ws generalizing pre i with
  | nil => simp at h
  | cons x xs ih =>
    cases i with
    | zero =>
      simp only [List.getElem?_cons_zero, Option.some.injEq] at h
      rw [wordAt_append_right, List.flatMap_cons, wordAt_append_left _ (by simp), Nat.mul_zero, wordAt_wordBytes, h]
    | succ i =>
      have := ih (pre ++ wordBytes x) i (by simpa using h)
      simpa [List.flatMap_cons, Nat.mul_add, Nat.add_assoc, Nat.add_comm 8] using this

/-- A run of byte writes to TAIL inside its bounds replaces exactly those bytes. -/
theorem writeTail_toList (t : Vector Byte 8) (j : Nat) (bs : Bytes) (h : j + bs.length ≤ 8) :
    (writeTail t j bs).toList = t.toList.take j ++ bs ++ t.toList.drop (j + bs.length) := by
  induction bs generalizing t j with
  | nil => simp [writeTail]
  | cons b bs ih =>
    simp only [List.length_cons] at h
    have hj : j < t.toList.length := by simp; omega
    rw [writeTail, ih _ _ (by omega)]
    have e : (t.setIfInBounds j b).toList = t.toList.set j b := by simp
    rw [e, List.take_add_one, List.take_set_of_le (by omega), List.drop_set_of_lt (by omega),
      List.getElem?_set_self hj]
    simp [show j + 1 + bs.length = j + (bs.length + 1) by omega]

end Sys2Proof.Laws
end

