-- ==== Sys2Proof/Laws/State.lean ====
section
/-! SUPPORT. One lemma per field per update of the state, each true by rfl, so that no later proof unfolds
a record update. (What a hardware reset leaves in the registers it frees is not among them: R111.) -/

namespace Sys2Proof.Machine

@[simp] theorem State.respond_k (s : State) (r : Reply) : (s.respond r).k = s.k := rfl
@[simp] theorem State.respond_v (s : State) (r : Reply) : (s.respond r).v = s.v := rfl
@[simp] theorem State.respond_len (s : State) (r : Reply) : (s.respond r).len = s.len := rfl
@[simp] theorem State.respond_tail (s : State) (r : Reply) : (s.respond r).tail = s.tail := rfl
@[simp] theorem State.respond_ntail (s : State) (r : Reply) : (s.respond r).ntail = s.ntail := rfl
@[simp] theorem State.respond_hvalid (s : State) (r : Reply) : (s.respond r).hvalid = s.hvalid := rfl
@[simp] theorem State.respond_pending (s : State) (r : Reply) : (s.respond r).pending = s.pending := rfl
@[simp] theorem State.respond_responses (s : State) (r : Reply) : (s.respond r).responses = s.responses ++ [r.packet] := rfl
@[simp] theorem State.respond_freeIdx (s : State) (r : Reply) : (s.respond r).freeIdx = s.freeIdx := rfl

@[simp] theorem State.startMessage_k (s : State) : (s.startMessage).k = s.k := rfl
@[simp] theorem State.startMessage_v (s : State) : (s.startMessage).v = init s.k := rfl
@[simp] theorem State.startMessage_len (s : State) : (s.startMessage).len = 0 := rfl
@[simp] theorem State.startMessage_tail (s : State) : (s.startMessage).tail = s.tail := rfl
@[simp] theorem State.startMessage_ntail (s : State) : (s.startMessage).ntail = 0 := rfl
@[simp] theorem State.startMessage_hvalid (s : State) : (s.startMessage).hvalid = s.hvalid := rfl
@[simp] theorem State.startMessage_pending (s : State) : (s.startMessage).pending = s.pending := rfl
@[simp] theorem State.startMessage_responses (s : State) : (s.startMessage).responses = s.responses := rfl
@[simp] theorem State.startMessage_freeIdx (s : State) : (s.startMessage).freeIdx = s.freeIdx := rfl

@[simp] theorem State.construct_k (s : State) (k : Key) : (s.construct k).k = k := rfl
@[simp] theorem State.construct_v (s : State) (k : Key) : (s.construct k).v = init k := rfl
@[simp] theorem State.construct_len (s : State) (k : Key) : (s.construct k).len = 0 := rfl
@[simp] theorem State.construct_tail (s : State) (k : Key) : (s.construct k).tail = s.tail := rfl
@[simp] theorem State.construct_ntail (s : State) (k : Key) : (s.construct k).ntail = 0 := rfl
@[simp] theorem State.construct_hvalid (s : State) (k : Key) : (s.construct k).hvalid = true := rfl
@[simp] theorem State.construct_pending (s : State) (k : Key) : (s.construct k).pending = s.pending := rfl
@[simp] theorem State.construct_responses (s : State) (k : Key) : (s.construct k).responses = s.responses := rfl
@[simp] theorem State.construct_freeIdx (s : State) (k : Key) : (s.construct k).freeIdx = s.freeIdx := rfl

@[simp] theorem State.commitFeed_k (s : State) (v : Mix) (l : LenWord) (t : Vector Byte 8) (n : Nat) : (s.commitFeed v l t n).k = s.k := rfl
@[simp] theorem State.commitFeed_v (s : State) (v : Mix) (l : LenWord) (t : Vector Byte 8) (n : Nat) : (s.commitFeed v l t n).v = v := rfl
@[simp] theorem State.commitFeed_len (s : State) (v : Mix) (l : LenWord) (t : Vector Byte 8) (n : Nat) : (s.commitFeed v l t n).len = l := rfl
@[simp] theorem State.commitFeed_tail (s : State) (v : Mix) (l : LenWord) (t : Vector Byte 8) (n : Nat) : (s.commitFeed v l t n).tail = t := rfl
@[simp] theorem State.commitFeed_ntail (s : State) (v : Mix) (l : LenWord) (t : Vector Byte 8) (n : Nat) : (s.commitFeed v l t n).ntail = BitVec.ofNat 3 n := rfl
@[simp] theorem State.commitFeed_hvalid (s : State) (v : Mix) (l : LenWord) (t : Vector Byte 8) (n : Nat) : (s.commitFeed v l t n).hvalid = s.hvalid := rfl
@[simp] theorem State.commitFeed_pending (s : State) (v : Mix) (l : LenWord) (t : Vector Byte 8) (n : Nat) : (s.commitFeed v l t n).pending = s.pending := rfl
@[simp] theorem State.commitFeed_responses (s : State) (v : Mix) (l : LenWord) (t : Vector Byte 8) (n : Nat) : (s.commitFeed v l t n).responses = s.responses := rfl
@[simp] theorem State.commitFeed_freeIdx (s : State) (v : Mix) (l : LenWord) (t : Vector Byte 8) (n : Nat) : (s.commitFeed v l t n).freeIdx = s.freeIdx := rfl

@[simp] theorem State.hardwareReset_hvalid (s : State) : (s.hardwareReset).hvalid = false := rfl
@[simp] theorem State.hardwareReset_pending (s : State) : (s.hardwareReset).pending = s.pending := rfl
@[simp] theorem State.hardwareReset_responses (s : State) : (s.hardwareReset).responses = s.responses := rfl
@[simp] theorem State.hardwareReset_freeIdx (s : State) : (s.hardwareReset).freeIdx = s.freeIdx + 8 := rfl

@[simp] theorem State.setPending_k (s : State) (xs : List HostInput) : (s.setPending xs).k = s.k := rfl
@[simp] theorem State.setPending_v (s : State) (xs : List HostInput) : (s.setPending xs).v = s.v := rfl
@[simp] theorem State.setPending_len (s : State) (xs : List HostInput) : (s.setPending xs).len = s.len := rfl
@[simp] theorem State.setPending_tail (s : State) (xs : List HostInput) : (s.setPending xs).tail = s.tail := rfl
@[simp] theorem State.setPending_ntail (s : State) (xs : List HostInput) : (s.setPending xs).ntail = s.ntail := rfl
@[simp] theorem State.setPending_hvalid (s : State) (xs : List HostInput) : (s.setPending xs).hvalid = s.hvalid := rfl
@[simp] theorem State.setPending_pending (s : State) (xs : List HostInput) : (s.setPending xs).pending = xs := rfl
@[simp] theorem State.setPending_responses (s : State) (xs : List HostInput) : (s.setPending xs).responses = s.responses := rfl
@[simp] theorem State.setPending_freeIdx (s : State) (xs : List HostInput) : (s.setPending xs).freeIdx = s.freeIdx := rfl

@[simp] theorem State.presentFirst_k (s : State) (p : Bytes) : (s.presentFirst p).k = s.k := rfl
@[simp] theorem State.presentFirst_v (s : State) (p : Bytes) : (s.presentFirst p).v = s.v := rfl
@[simp] theorem State.presentFirst_len (s : State) (p : Bytes) : (s.presentFirst p).len = s.len := rfl
@[simp] theorem State.presentFirst_tail (s : State) (p : Bytes) : (s.presentFirst p).tail = s.tail := rfl
@[simp] theorem State.presentFirst_ntail (s : State) (p : Bytes) : (s.presentFirst p).ntail = s.ntail := rfl
@[simp] theorem State.presentFirst_hvalid (s : State) (p : Bytes) : (s.presentFirst p).hvalid = s.hvalid := rfl
@[simp] theorem State.presentFirst_pending (s : State) (p : Bytes) : (s.presentFirst p).pending = .packet p :: s.pending := rfl
@[simp] theorem State.presentFirst_responses (s : State) (p : Bytes) : (s.presentFirst p).responses = s.responses := rfl
@[simp] theorem State.presentFirst_freeIdx (s : State) (p : Bytes) : (s.presentFirst p).freeIdx = s.freeIdx := rfl

end Sys2Proof.Machine
end

