-- ==== Sys2Proof/Laws/Ops.lean ====
section
/-! SUPPORT. What the shared operations of Machine/Ops.lean, Flags.lean and Operands.lean can do. -/

namespace Sys2Proof.Laws

open Sys2Proof.Machine

@[simp] theorem finish_ok (s t : State) (data : List Word) :
    finish s (.ok (t, data)) = .next (t.respond (.ok data)) := rfl

@[simp] theorem finish_error (s : State) (e : Exception) :
    finish s (.error e) = .next (s.respond (.error e)) := rfl

/-- Every command's end: it commits and responds OK, or it raises and has written nothing (R96). -/
theorem finish_cases (s : State) (body : Except Exception (State × List Word)) :
    (∃ t data, body = .ok (t, data) ∧ finish s body = .next (t.respond (.ok data))) ∨
      ∃ e, body = .error e ∧ finish s body = .next (s.respond (.error e)) := by
  cases body with
  | ok p => exact .inl ⟨p.1, p.2, rfl, rfl⟩
  | error e => exact .inr ⟨e, rfl, rfl⟩

@[simp] theorem requireHasher_of_valid {s : State} (h : s.hvalid = true) : requireHasher s = .ok () := if_pos h

@[simp] theorem requireHasher_of_invalid {s : State} (h : s.hvalid = false) :
    requireHasher s = .error .noHasher := by simp [requireHasher, h]

/-- The response to an exception is its status byte alone (R57). -/
@[simp] theorem packet_error (e : Exception) : (Reply.error e).packet = [e.status] := rfl

@[simp] theorem packet_ok_nil : (Reply.ok []).packet = [0x00] := rfl

@[simp] theorem packet_ok_one (w : Word) : (Reply.ok [w]).packet = 0x00 :: wordBytes w := rfl

/-- The packet of an OK reply carries its words (R57). -/
theorem carries_packet (ws : List Word) : Carries (Reply.ok ws).packet ws := by
  refine ⟨?_, rfl, fun i w h => wordAt_flatMap [0x00] ws i w h⟩
  induction ws with
  | nil => rfl
  | cons w ws ih => simp [Reply.packet] at ih ⊢; omega

end Sys2Proof.Laws
end

