-- ==== Sys2Proof/Laws/Hasher.lean ====
section
/-! SUPPORT. What a byte key, the absorbing loop and FEED's body can do: the spec lemmas that proofs about
NEWB, HASH and FEED cite instead of unfolding the commands. -/

namespace Sys2Proof.Laws

open Sys2Proof.Machine

/-- A 16-byte key is split into its two little-endian words (R87). -/
theorem byteKey_of_length {key : Bytes} (h : key.length = 16) :
    byteKey key = .ok ⟨wordAt key 0, wordAt key 8⟩ := by
  rw [byteKey, if_pos h, le64_of_le (by omega), le64_of_le (by omega)]
  rfl

/-- Any other key raises KeyLength (R98). -/
theorem byteKey_of_length_ne {key : Bytes} (h : key.length ≠ 16) :
    byteKey key = .error (.keyLength key.length) := if_neg h

/-- Folds over the same indices by steps that agree there are the same. -/
theorem foldl_range_congr {α : Type} {f g : α → Nat → α} {n : Nat} (a : α) (h : ∀ a, ∀ i < n, f a i = g a i) :
    (List.range n).foldl f a = (List.range n).foldl g a := by
  induction n with
  | zero => rfl
  | succ n ih => simp [List.range_succ, ih fun a i hi => h a i (by omega), h _ n (by omega)]

/-- A fold over `m + n` indices is one over the first `m`, then one over the next `n`. -/
theorem foldl_range_add {α : Type} (f : α → Nat → α) (m n : Nat) (a : α) :
    (List.range (m + n)).foldl f a =
      (List.range n).foldl (fun a i => f a (m + i)) ((List.range m).foldl f a) := by
  induction n with
  | zero => rfl
  | succ n ih => simp [← Nat.add_assoc, List.range_succ, ih]

/-- The absorbing loop inside its buffer is a fold of absorb over the words in order (R39). -/
theorem absorbWords_eq {s : Bytes} {n off : Nat} {v : Mix} (h : off + 8 * n ≤ s.length) :
    absorbWords s n off v = .ok ((List.range n).foldl (fun v i => absorb v (wordAt s (off + 8 * i))) v) := by
  induction n generalizing off v with
  | zero => rfl
  | succ n ih =>
    simp only [absorbWords, le64_of_le (show off + 8 ≤ s.length by omega), bind, Except.bind,
      ih (show off + 8 + 8 * n ≤ s.length by omega)]
    simp [List.range_succ_eq_map, List.foldl_map, Nat.mul_add, Nat.add_assoc, Nat.add_comm 8]

/-- Absorbing a message from where its whole words `a` end: `a` first, then the rest. -/
theorem absorbAll_append {a : Bytes} (b : Bytes) (v : Mix) (h : a.length % 8 = 0) :
    absorbAll v (a ++ b) = absorbAll (absorbAll v a) b := by
  have ha : a.length = 8 * (a.length / 8) := by omega
  have hl : (a ++ b).length / 8 = a.length / 8 + b.length / 8 := by simp; omega
  rw [absorbAll, hl, foldl_range_add, absorbAll, absorbAll,
    foldl_range_congr v fun w i hi => by rw [wordAt_append_left b (by omega)]]
  exact foldl_range_congr _ fun w i _ => by
    rw [show 8 * (a.length / 8 + i) = a.length + 8 * i by omega, wordAt_append_right]

/-- A message too short for a word absorbs nothing. -/
theorem absorbAll_of_lt {m : Bytes} (v : Mix) (h : m.length < 8) : absorbAll v m = v := by
  simp [absorbAll, Nat.div_eq_of_lt h]

theorem remainder_append {a : Bytes} (b : Bytes) (h : a.length % 8 = 0) : remainder (a ++ b) = remainder b := by
  have hl : 8 * ((a ++ b).length / 8) = a.length + 8 * (b.length / 8) := by simp; omega
  rw [remainder, hl, List.drop_append, List.drop_eq_nil_of_le (by omega), remainder]
  simp

@[simp] theorem remainder_length (m : Bytes) : (remainder m).length = m.length % 8 := by simp [remainder]; omega

theorem liveTail_length (s : State) : (liveTail s).length = s.ntail.toNat := by
  have := s.ntail.isLt
  simp [liveTail]; omega

/-- Reading `n` bytes off the front of TAIL after writing them there. -/
theorem writeTail_front (t : Vector Byte 8) (bs : Bytes) (h : bs.length ≤ 8) :
    (writeTail t 0 bs).toList.take bs.length = bs := by
  rw [writeTail_toList t 0 bs (by omega)]
  simp

/-- What FEED's body leaves: `bs` are the live tail bytes and the chunk, one after the other (R20). -/
structure FedTo (s t : State) (n : Nat) (bs : Bytes) : Prop where
  k : t.k = s.k
  v : t.v = absorbAll s.v bs
  len : t.len = s.len + BitVec.ofNat 64 n
  ntail : t.ntail.toNat = bs.length % 8
  tail : liveTail t = remainder bs
  hvalid : t.hvalid = s.hvalid
  pending : t.pending = s.pending
  responses : t.responses = s.responses
  freeIdx : t.freeIdx = s.freeIdx

/-- Steps 2 and 3 of FEED, from a chunk whose first `off` bytes are used up. -/
theorem feedFrom_eq {chunk : Bytes} {off : Nat} (h : off ≤ chunk.length) (v : Mix) (t : Vector Byte 8)
    (newlen : LenWord) (s : State) :
    feedFrom chunk off v t newlen s =
      .ok (s.commitFeed (absorbAll v (chunk.drop off)) newlen (writeTail t 0 (remainder (chunk.drop off)))
        ((chunk.drop off).length % 8)) := by
  have hw : (List.range ((chunk.length - off) / 8)).foldl (fun v i => absorb v (wordAt chunk (off + 8 * i))) v =
      absorbAll v (chunk.drop off) := by
    rw [absorbAll, List.length_drop]
    refine foldl_range_congr v fun w i _ => ?_
    have e := wordAt_append_right (chunk.take off) (chunk.drop off) (8 * i)
    rw [List.take_append_drop, List.length_take_of_le h] at e
    rw [e]
  rw [feedFrom, absorbWords_eq (by omega), hw]
  simp only [bind, Except.bind, pure, Except.pure, remainder, List.drop_drop, List.length_drop]
  congr 2
  omega

/-- The registers after a commit whose tail is a remainder. -/
theorem fedTo_commit (s : State) (n : Nat) (t : Vector Byte 8) (bs : Bytes) :
    FedTo s (s.commitFeed (absorbAll s.v bs) (s.len + BitVec.ofNat 64 n) (writeTail t 0 (remainder bs))
      (bs.length % 8)) n bs := by
  have hn : (BitVec.ofNat 3 (bs.length % 8)).toNat = bs.length % 8 := by simp
  refine ⟨rfl, rfl, rfl, hn, ?_, rfl, rfl, rfl, rfl⟩
  rw [liveTail, State.commitFeed_ntail, State.commitFeed_tail, hn, ← remainder_length bs]
  exact writeTail_front t _ (by simp; omega)

/-- Everything FEED's body can do: it always succeeds (R99), and the new state is the closed form of
the live tail followed by the chunk, in all three paths of R73. -/
theorem feedBody_spec (chunk : Bytes) (s : State) :
    ∃ t, feedBody chunk s = .ok t ∧ FedTo s t chunk.length (liveTail s ++ chunk) := by
  have hl := liveTail_length s
  have hlt := s.ntail.isLt
  by_cases h0 : s.ntail.toNat = 0
  · have e : liveTail s = [] := List.eq_nil_of_length_eq_zero (by omega)
    refine ⟨_, by rw [feedBody, if_pos h0, feedFrom_eq (by omega)], ?_⟩
    simpa [e] using fedTo_commit s chunk.length s.tail chunk
  by_cases hn : chunk.length < 8 - s.ntail.toNat
  · refine ⟨s.commitFeed s.v (s.len + BitVec.ofNat 64 chunk.length) (writeTail s.tail s.ntail.toNat chunk)
      (s.ntail.toNat + chunk.length), by rw [feedBody, if_neg h0, if_pos hn], rfl, ?_, rfl, ?_, ?_, rfl, rfl, rfl, rfl⟩
    · rw [absorbAll_of_lt _ (by simp; omega)]; rfl
    · simp [hl]
    · have hb : (BitVec.ofNat 3 (s.ntail.toNat + chunk.length)).toNat = s.ntail.toNat + chunk.length := by
        simp; omega
      rw [remainder, List.length_append, hl, Nat.div_eq_of_lt (by omega), Nat.mul_zero, List.drop_zero,
        liveTail, State.commitFeed_ntail, State.commitFeed_tail, hb, writeTail_toList _ _ _ (by omega), liveTail]
      exact List.take_left' (by simp; omega)
  · let c := chunk.take (8 - s.ntail.toNat)
    have hc : c.length = 8 - s.ntail.toNat := List.length_take_of_le (by omega)
    have ht : (writeTail s.tail s.ntail.toNat c).toList = liveTail s ++ c := by
      rw [writeTail_toList _ _ _ (by omega), List.drop_eq_nil_of_le (by simp; omega)]
      simp [liveTail]
    have hw : (liveTail s ++ c).length = 8 := by simp; omega
    have ha : absorb s.v (wordAt (liveTail s ++ c) 0) = absorbAll s.v (liveTail s ++ c) := by
      simp [absorbAll, hw]
    have hs : liveTail s ++ chunk = (liveTail s ++ c) ++ chunk.drop (8 - s.ntail.toNat) := by
      rw [List.append_assoc, List.take_append_drop]
    have hr : (chunk.drop (8 - s.ntail.toNat)).length % 8 = (liveTail s ++ chunk).length % 8 := by
      rw [hs, List.length_append, hw]; omega
    have hb : feedBody chunk s = feedFrom chunk (8 - s.ntail.toNat) (absorbAll s.v (liveTail s ++ c))
        (writeTail s.tail s.ntail.toNat c) (s.len + BitVec.ofNat 64 chunk.length) s := by
      rw [feedBody, if_neg h0, if_neg hn]
      simp only [bind, Except.bind]
      rw [ht, le64_of_le (by omega), ← ha]
    refine ⟨_, hb.trans (feedFrom_eq (by omega) _ _ _ _), ?_⟩
    have e := fedTo_commit s chunk.length (writeTail s.tail s.ntail.toNat c) (liveTail s ++ chunk)
    rw [← hr] at e
    rw [hs] at e ⊢
    rwa [absorbAll_append _ _ (by omega), remainder_append _ (by omega)] at e

end Sys2Proof.Laws
end

