-- ==== Sys2Proof/Laws/Exec.lean ====
section
/-! SUPPORT. What a command can do: each command's outcomes in terms of the shared operations, and one
inversion lemma over all of them. Proofs cite these instead of unfolding the meanings. -/

namespace Sys2Proof.Laws

open Sys2Proof.Machine

theorem exec_new (k0 k1 : Word) (s : State) :
    exec (.new k0 k1) s = .next ((s.construct ⟨k0, k1⟩).respond (.ok [])) := rfl

theorem exec_newb_of_length {key : Bytes} (s : State) (h : key.length = 16) :
    exec (.newb key) s = .next ((s.construct ⟨wordAt key 0, wordAt key 8⟩).respond (.ok [])) := by
  rw [exec, execNewb, byteKey_of_length h]; rfl

theorem exec_newb_of_length_ne {key : Bytes} (s : State) (h : key.length ≠ 16) :
    exec (.newb key) s = .next (s.respond (.error (.keyLength key.length))) := by
  rw [exec, execNewb, byteKey_of_length_ne h]; rfl

theorem exec_reset_of_valid {s : State} (h : s.hvalid = true) :
    exec .reset s = .next (s.startMessage.respond (.ok [])) := by
  rw [exec, execReset, requireHasher_of_valid h]; rfl

theorem exec_reset_of_invalid {s : State} (h : s.hvalid = false) :
    exec .reset s = .next (s.respond (.error .noHasher)) := by
  rw [exec, execReset, requireHasher_of_invalid h]; rfl

/-- FEED completes in the closed form of the live tail followed by the chunk. -/
theorem exec_feed_of_valid (chunk : Bytes) {s : State} (h : s.hvalid = true) :
    ∃ t, feedBody chunk s = .ok t ∧ FedTo s t chunk.length (liveTail s ++ chunk) ∧
      exec (.feed chunk) s = .next (t.respond (.ok [])) := by
  obtain ⟨t, ht, f⟩ := feedBody_spec chunk s
  exact ⟨t, ht, f, by rw [exec, execFeed, requireHasher_of_valid h, ht]; rfl⟩

theorem exec_feed_of_invalid (chunk : Bytes) {s : State} (h : s.hvalid = false) :
    exec (.feed chunk) s = .next (s.respond (.error .noHasher)) := by
  rw [exec, execFeed, requireHasher_of_invalid h]; rfl

/-- FEEDT's meaning and FEED's are two definitions over one body. -/
theorem execFeedt_eq (text : Bytes) (s : State) : execFeedt text s = execFeed text s := rfl

theorem exec_result_of_valid {s : State} (h : s.hvalid = true) :
    exec .result s = .next (s.respond (.ok [finalize s.v (finalword (s.len.toNat % 256) s.tail.toList s.ntail.toNat)])) := by
  rw [exec, execResult, requireHasher_of_valid h]; rfl

theorem exec_result_of_invalid {s : State} (h : s.hvalid = false) :
    exec .result s = .next (s.respond (.error .noHasher)) := by
  rw [exec, execResult, requireHasher_of_invalid h]; rfl

theorem exec_hash_of_length {key : Bytes} (msg : Bytes) (s : State) (h : key.length = 16) :
    exec (.hash key msg) s = .next (s.respond (.ok [siphash24 ⟨wordAt key 0, wordAt key 8⟩ msg])) := by
  simp only [exec, execHash, byteKey_of_length h, bind, Except.bind]
  rw [absorbWords_eq (by omega)]
  simp only [pure, Except.pure, finish_ok, siphash24, absorbAll, Nat.zero_add, remainder]
  rw [show msg.length - 8 * (msg.length / 8) = msg.length % 8 by omega]

theorem exec_hash_of_length_ne {key : Bytes} (msg : Bytes) (s : State) (h : key.length ≠ 16) :
    exec (.hash key msg) s = .next (s.respond (.error (.keyLength key.length))) := by
  rw [exec, execHash, byteKey_of_length_ne h]; rfl

theorem exec_ldle64_of_le {buf : Bytes} {off : Nat} (s : State) (h : off + 8 ≤ buf.length) :
    exec (.ldle64 buf off) s = .next (s.respond (.ok [wordAt buf off])) := by
  rw [exec, execLdle64, le64_of_le h]; rfl

theorem exec_ldle64_of_lt {buf : Bytes} {off : Nat} (s : State) (h : buf.length < off + 8) :
    exec (.ldle64 buf off) s = .next (s.respond (.error (.rangeViolation off buf.length))) := by
  rw [exec, execLdle64, le64_of_lt h]; rfl

/-- The command `i` completes at `s`: it commits `t` and responds OK with `data`. -/
structure Commits (i : Instr) (s t : State) (data : List Word) : Prop where
  status : statusOf i s = 0x00
  exec : exec i s = .next (t.respond (.ok data))
  responses : t.responses = s.responses
  pending : t.pending = s.pending
  freeIdx : t.freeIdx = s.freeIdx
  hvalid : s.hvalid = true → t.hvalid = true
  length : data.length = 0 ∨ data.length = 1 ∨ data.length = 4

/-- Everything a command can do to the port and to HVALID: it raises the exception R95 gives it and
has written nothing, or it commits a state and responds OK with 0, 1 or 4 words. -/
theorem exec_cases (i : Instr) (s : State) :
    (∃ e : Exception, statusOf i s = e.status ∧ exec i s = .next (s.respond (.error e))) ∨
      ∃ t data, Commits i s t data := by
  cases i with
  | new k0 k1 => exact .inr ⟨_, _, rfl, exec_new k0 k1 s, rfl, rfl, rfl, fun _ => rfl, .inl rfl⟩
  | newb key =>
    by_cases h : key.length = 16
    · exact .inr ⟨_, _, if_pos h, exec_newb_of_length s h, rfl, rfl, rfl, fun _ => rfl, .inl rfl⟩
    · exact .inl ⟨.keyLength key.length, if_neg h, exec_newb_of_length_ne s h⟩
  | reset =>
    cases h : s.hvalid with
    | true => exact .inr ⟨_, _, by simp [statusOf, h], exec_reset_of_valid h, rfl, rfl, rfl, fun _ => h, .inl rfl⟩
    | false => exact .inl ⟨_, by simp [statusOf, h, Exception.status], exec_reset_of_invalid h⟩
  | feed chunk =>
    cases h : s.hvalid with
    | true =>
      obtain ⟨t, -, f, e⟩ := exec_feed_of_valid chunk h
      exact .inr ⟨t, _, by simp [statusOf, h], e, f.responses, f.pending, f.freeIdx, fun _ => f.hvalid.trans h, .inl rfl⟩
    | false => exact .inl ⟨_, by simp [statusOf, h, Exception.status], exec_feed_of_invalid chunk h⟩
  | feedt text =>
    cases h : s.hvalid with
    | true =>
      obtain ⟨t, -, f, e⟩ := exec_feed_of_valid text h
      exact .inr ⟨t, _, by simp [statusOf, h], e, f.responses, f.pending, f.freeIdx, fun _ => f.hvalid.trans h, .inl rfl⟩
    | false => exact .inl ⟨_, by simp [statusOf, h, Exception.status], exec_feed_of_invalid text h⟩
  | result =>
    cases h : s.hvalid with
    | true => exact .inr ⟨s, _, by simp [statusOf, h], exec_result_of_valid h, rfl, rfl, rfl, fun _ => h, .inr (.inl rfl)⟩
    | false => exact .inl ⟨_, by simp [statusOf, h, Exception.status], exec_result_of_invalid h⟩
  | hash key msg =>
    by_cases h : key.length = 16
    · exact .inr ⟨s, _, if_pos h, exec_hash_of_length msg s h, rfl, rfl, rfl, id, .inr (.inl rfl)⟩
    · exact .inl ⟨.keyLength key.length, if_neg h, exec_hash_of_length_ne msg s h⟩
  | round v0 v1 v2 v3 => exact .inr ⟨s, _, rfl, rfl, rfl, rfl, rfl, id, .inr (.inr rfl)⟩
  | ldle64 buf off =>
    by_cases h : off + 8 ≤ buf.length
    · exact .inr ⟨s, _, if_pos h, exec_ldle64_of_le s h, rfl, rfl, rfl, id, .inr (.inl rfl)⟩
    · exact .inl ⟨.rangeViolation off buf.length, if_neg h, exec_ldle64_of_lt s (by omega)⟩
  | rotl x b => exact .inr ⟨s, _, rfl, rfl, rfl, rfl, rfl, id, .inr (.inl rfl)⟩

/-- The model's rotation is the one of a 64-bit vector, for every count its type admits. -/
theorem rotl_eq_rotateLeft (x : Word) (b : RotCount) : rotl x b = x.rotateLeft b.toNat := by
  have := b.isLt
  simp [rotl, BitVec.rotateLeft_def, Nat.mod_eq_of_lt (show b.toNat < 64 by omega)]

end Sys2Proof.Laws
end

