-- ==== Sys2Proof/Laws/Message.lean ====
section
/-! SUPPORT. Messages: their whole words and their remainder, the closed form of R20 under FEED's body, and
the hasher equality of U3. -/

namespace Sys2Proof.Laws

open Sys2Proof.Machine

/-- A message is its whole words followed by its remainder. -/
theorem message_split (m : Bytes) :
    ∃ a, m = a ++ remainder m ∧ a.length % 8 = 0 ∧ ∀ v, absorbAll v m = absorbAll v a := by
  have h : (m.take (8 * (m.length / 8))).length % 8 = 0 := by simp; omega
  have e : m.take (8 * (m.length / 8)) ++ remainder m = m := List.take_append_drop _ _
  refine ⟨_, e.symm, h, fun v => ?_⟩
  have t := absorbAll_append (remainder m) v h
  rw [e, absorbAll_of_lt (m := remainder m) _ (by rw [remainder_length]; omega)] at t
  exact t

/-- Absorbing a message and then more bytes: only the remainder of the first meets the second. -/
theorem absorbAll_more (v : Mix) (m c : Bytes) :
    absorbAll v (m ++ c) = absorbAll (absorbAll v m) (remainder m ++ c) := by
  obtain ⟨a, e, h, f⟩ := message_split m
  rw [f v, ← absorbAll_append _ _ h, ← List.append_assoc, ← e]

theorem remainder_more (m c : Bytes) : remainder (m ++ c) = remainder (remainder m ++ c) := by
  obtain ⟨a, e, h, -⟩ := message_split m
  rw [← remainder_append (remainder m ++ c) h, ← List.append_assoc, ← e]

/-- The finalization word reads the live tail only (R16, R75). -/
theorem finalword_liveTail (l8 : Nat) (s : State) :
    finalword l8 s.tail.toList s.ntail.toNat = finalword l8 (liveTail s) s.ntail.toNat := by
  rw [finalword, finalword, liveTail, List.take_take, Nat.min_self]

/-- A constructed hasher with nothing fed. -/
theorem represents_nil {s : State} (h : s.hvalid = true) (hv : s.v = Machine.init s.k) (hl : s.len = 0)
    (hn : s.ntail = 0) : Represents s [] :=
  ⟨h, by rw [hv, absorbAll_of_lt _ (by simp)], by simpa using hl, by simp [hn], by simp [liveTail, hn, remainder]⟩

/-- FEED's body extends the message. -/
theorem represents_append {s t : State} {m c : Bytes} (r : Represents s m)
    (f : FedTo s t c.length (liveTail s ++ c)) : Represents t (m ++ c) where
  hvalid := f.hvalid.trans r.hvalid
  v := by rw [f.v, f.k, r.v, r.tail, ← absorbAll_more]
  len := by rw [f.len, r.len, List.length_append, BitVec.ofNat_add]
  ntail := by rw [f.ntail, r.tail]; simp
  tail := by rw [f.tail, r.tail, ← remainder_more]

/-- Sending a response changes no register. -/
theorem represents_respond {s : State} {m : Bytes} (r : Represents s m) (q : Reply) :
    Represents (s.respond q) m := ⟨r.hvalid, r.v, r.len, r.ntail, r.tail⟩

/-- From the same hasher FEED's body leaves the same hasher (U3). -/
theorem sameHasher_fedTo {s s' t t' : State} {c : Bytes} (h : SameHasher s s')
    (f : FedTo s t c.length (liveTail s ++ c)) (f' : FedTo s' t' c.length (liveTail s' ++ c)) :
    SameHasher t t' where
  k := by rw [f.k, f'.k, h.k]
  v := by rw [f.v, f'.v, h.v, h.tail]
  len := by rw [f.len, f'.len, h.len]
  ntail := BitVec.eq_of_toNat_eq (by rw [f.ntail, f'.ntail, h.tail])
  tail := by rw [f.tail, f'.tail, h.tail]
  hvalid := by rw [f.hvalid, f'.hvalid, h.hvalid]

end Sys2Proof.Laws
end

