-- ==== Sys2Proof/Laws/PerInstr.lean ====
section
/-! SUPPORT. The per-instruction family EncodedForm: a command's packet begins with its opcode and has the
length its format gives it (spec/30_encoding.md R45, R58). -/

namespace Sys2Proof.Laws.EncodedForm

open Sys2Proof.Machine

/-- The packet length of a command's format (R47 to R53, R58). -/
def packetLength : Instr → Nat
  | .new _ _ => 17
  | .newb key => 1 + key.length
  | .reset => 1
  | .feed chunk => 1 + chunk.length
  | .feedt text => 1 + text.length
  | .result => 1
  | .hash key msg => 2 + key.length + msg.length
  | .round _ _ _ _ => 33
  | .ldle64 buf _ => 9 + buf.length
  | .rotl _ _ => 10

def Statement (i : Instr) : Prop :=
  (encode i).head? = some (opcode i) ∧ (encode i).length = packetLength i

theorem new (k0 k1 : Word) : Statement (.new k0 k1) := ⟨rfl, rfl⟩

theorem newb (key : Bytes) : Statement (.newb key) := ⟨rfl, Nat.add_comm ..⟩

theorem reset : Statement .reset := ⟨rfl, rfl⟩

theorem feed (chunk : Bytes) : Statement (.feed chunk) := ⟨rfl, Nat.add_comm ..⟩

theorem feedt (text : Bytes) : Statement (.feedt text) := ⟨rfl, Nat.add_comm ..⟩

theorem result : Statement .result := ⟨rfl, rfl⟩

theorem hash (key msg : Bytes) : Statement (.hash key msg) :=
  ⟨rfl, by simp [encode, operandBytes, packetLength]; omega⟩

theorem round (v0 v1 v2 v3 : Word) : Statement (.round v0 v1 v2 v3) := ⟨rfl, rfl⟩

theorem ldle64 (buf : Bytes) (off : Nat) : Statement (.ldle64 buf off) :=
  ⟨rfl, by simp [encode, operandBytes, packetLength]; omega⟩

theorem rotl (x : Word) (b : RotCount) : Statement (.rotl x b) := ⟨rfl, rfl⟩

end Sys2Proof.Laws.EncodedForm
end

