-- ==== Sys2Proof/Tests/Slice0.lean ====
section
/-! SUPPORT. Tests: expected values are those of spec/95_test_vectors.md and of the rules' worked examples;
and a witness for the hypotheses of every statement that has any. -/

namespace Sys2Proof.Tests

open Sys2Proof.Machine Sys2Proof.Laws

/-! ## Helpers -/

def after : Result → State
  | .next s => s
  | .fault _ => State.reset
  | .refused _ => State.reset

/-- `n` ascending bytes from 00, the key and messages of spec/95. -/
def ascending (n : Nat) : Bytes := (List.range n).map (BitVec.ofNat 8)

/-- The last response at the port. -/
def answer (r : Result) : Bytes := (after r).responses.getLastD []

/-- After P1 command 1: the standard key, nothing fed. -/
def constructed : State := after (exec (.newb (ascending 16)) State.reset)

/-- After P1 command 2: 15 bytes fed. -/
def fed : State := after (exec (.feed (ascending 15)) constructed)

/-- `fed` with its one dead tail byte, TAIL[7], changed. -/
def fedOtherTail : State := { fed with tail := fed.tail.setIfInBounds 7 0xaa }

def presenting (s : State) (x : HostInput) : State := { s with pending := [x] }

/-! ## WellFormed: each check refuses an ill-formed command (R50, R52) -/

theorem test_wellFormed_key_255 : (Instr.hash (List.replicate 255 0) []).wellFormed = true := by
  rw [Instr.wellFormed, List.length_replicate]; decide
theorem test_illFormed_key_256 : (Instr.hash (List.replicate 256 0) []).wellFormed = false := by
  rw [Instr.wellFormed, List.length_replicate]; decide
theorem test_wellFormed_off_max : (Instr.ldle64 [] (2 ^ 64 - 1)).wellFormed = true := by decide
theorem test_illFormed_off_2_64 : (Instr.ldle64 [] (2 ^ 64)).wellFormed = false := by decide

/-! ## Decoding, one word of each constructor (packets of spec/95 section 7 and section 2, 3) -/

theorem test_decode_new : decode [0x01, 0x00, 0x01, 0x02, 0x03, 0x04, 0x05, 0x06, 0x07,
    0x08, 0x09, 0x0a, 0x0b, 0x0c, 0x0d, 0x0e, 0x0f] =
    .ok (.new 0x0706050403020100 0x0f0e0d0c0b0a0908) := by decide
theorem test_decode_newb : decode [0x02, 0x00, 0x01] = .ok (.newb [0x00, 0x01]) := by decide
theorem test_decode_reset : decode [0x03] = .ok .reset := by decide
theorem test_decode_feed : decode [0x04, 0xde, 0xad, 0xbe, 0xef] = .ok (.feed [0xde, 0xad, 0xbe, 0xef]) := by decide
theorem test_decode_feedt : decode [0x05, 0x61, 0x62, 0x63] = .ok (.feedt [0x61, 0x62, 0x63]) := by decide
theorem test_decode_result : decode [0x06] = .ok .result := by decide
theorem test_decode_hash : decode [0x07, 0x03, 0x0a, 0x0b, 0x0c, 0x61, 0x62] =
    .ok (.hash [0x0a, 0x0b, 0x0c] [0x61, 0x62]) := by decide
theorem test_decode_round : decode ([0x08, 0x01, 0x00, 0x00, 0x00, 0x00, 0x00, 0x00, 0x00] ++
    List.replicate 23 0x00 ++ [0x80]) = .ok (.round 1 0 0 0x8000000000000000) := by decide
theorem test_decode_ldle64 : decode [0x09, 0x01, 0x00, 0x00, 0x00, 0x00, 0x00, 0x00, 0x80, 0x0c] =
    .ok (.ldle64 [0x0c] 0x8000000000000001) := by decide
theorem test_decode_rotl : decode [0x0a, 0x01, 0x00, 0x00, 0x00, 0x00, 0x00, 0x00, 0x00, 0x3f] =
    .ok (.rotl 1 63) := by decide

/-- P5 commands 13, 16, 18, 20, 22, 24 and the empty packet (R45): malformed, each by name. -/
theorem test_decode_malformed :
    decode [] = .error .emptyPacket ∧ decode [0x00] = .error (.reservedOpcode 0x00) ∧
    decode [0x0b] = .error (.reservedOpcode 0x0b) ∧ decode [0x03, 0x00] = .error (.wrongLength 0x03) ∧
    decode (0x01 :: ascending 15) = .error (.wrongLength 0x01) ∧
    decode [0x0a, 0x01, 0x00, 0x00, 0x00, 0x00, 0x00, 0x00, 0x00, 0x40] = .error (.reservedBits 0x40) ∧
    decode ([0x07, 0x14] ++ List.replicate 10 0) = .error (.wrongLength 0x07) ∧
    decode [0x07] = .error (.wrongLength 0x07) ∧ decode [0x09, 0x00, 0x00] = .error (.wrongLength 0x09) := by decide

theorem test_encode_hash : encode (.hash [0x0a, 0x0b] [0x61]) = [0x07, 0x02, 0x0a, 0x0b, 0x61] := by decide
theorem test_encode_rotl : encode (.rotl 1 63) = [0x0a, 0x01, 0x00, 0x00, 0x00, 0x00, 0x00, 0x00, 0x00, 0x3f] := by decide

/-- The opcode table's rows as first commands after reset. -/
theorem test_table_rows :
    decodeTableWord 8 0x01 = some (.new 0 0) ∧ decodeTableWord 8 0x02 = some (.newb (List.replicate 16 0)) ∧
    decodeTableWord 8 0x07 = some (.hash [] []) ∧ decodeTableWord 8 0x08 = some (.round 0 0 0 0) ∧
    decodeTableWord 8 0x09 = some (.ldle64 (List.replicate 8 0) 0) ∧ decodeTableWord 8 0x0a = some (.rotl 0 0) ∧
    decodeTableWord 8 0x00 = none := by decide
theorem test_first_command_runs : (after (step (State.reset.withFetchWord 8 0x02))).hvalid = true := by decide

/-! ## The functions (worked examples of 40, 41; spec/95 sections 2, 3, 4, 6) -/

theorem test_rotl_13 : rotl 0x0123456789abcdef 13 = 0x68acf13579bde024 := by decide
theorem test_rotl_top_reenters : rotl 0x8000000000000000 1 = 1 ∧ rotl 1 0 = 1 := by decide
theorem test_sipround : sipround ⟨0x0123456789abcdef, 0xfedcba9876543210, 0x0f1e2d3c4b5a6978, 0x8796a5b4c3d2e1f0⟩ =
    ⟨0x33001123eeddccfd, 0x1d0b375d48a3fad5, 0x88eb2b8cff61c426, 0x177dca9a711bacff⟩ := by decide
theorem test_sipround_carry : sipround ⟨0xffffffffffffffff, 0xffffffffffffffff, 0xffffffffffffffff, 0xffffffffffffffff⟩ =
    ⟨0xffffffff00000000, 0xfffffffffffdffff, 0xffffffffffffffff, 0xffffffff00200000⟩ := by decide
theorem test_absorb : absorb ⟨0x7469686173716475, 0x6b617f6d656e6665, 0x6b7f62616d677361, 0x7b6b696e727e6c7b⟩
    0x0706050403020100 =
    ⟨0x4a017198de0a59e0, 0x0d52f6f62a4f59a4, 0x634cb3577b01fd3d, 0xa5224d6f55c7d9c8⟩ := by decide
theorem test_finalword : finalword 4 [0xde, 0xad, 0xbe, 0xef, 0x55] 4 = 0x04000000efbeadde ∧
    finalword 8 [] 0 = 0x0800000000000000 := by decide
theorem test_finalize : finalize ⟨0x4a017198de0a59e0, 0x0d52f6f62a4f59a4, 0x634cb3577b01fd3d, 0xa5224d6f55c7d9c8⟩
    0x0f0e0d0c0b0a0908 = 0xa129ca6149be45e5 := by decide

/-! ## The commands -/

/-- R70's worked example. -/
theorem test_new : (after (exec (.new 0x0706050403020100 0x0f0e0d0c0b0a0908) State.reset)).v =
    ⟨0x7469686173716475, 0x6b617f6d656e6665, 0x6b7f62616d677361, 0x7b6b696e727e6c7b⟩ := by decide
/-- R71: the same state from the byte key. -/
theorem test_newb : constructed.k = ⟨0x0706050403020100, 0x0f0e0d0c0b0a0908⟩ ∧ constructed.hvalid = true := by decide
/-- P5 commands 6 and 7. -/
theorem test_newb_keyLength : answer (exec (.newb (ascending 17)) State.reset) = [0x02] ∧
    answer (exec (.newb []) State.reset) = [0x02] := by decide
/-- R72's worked example, in mid-message. -/
theorem test_reset : (after (exec .reset fed)).v = constructed.v ∧ (after (exec .reset fed)).ntail = 0 := by decide
/-- P5 command 3. -/
theorem test_reset_noHasher : answer (exec .reset State.reset) = [0x04] := by decide
/-- R73's worked example: one word absorbed, seven bytes kept. -/
theorem test_feed : fed.v = ⟨0x4a017198de0a59e0, 0x0d52f6f62a4f59a4, 0x634cb3577b01fd3d, 0xa5224d6f55c7d9c8⟩ ∧
    fed.len = 15 ∧ liveTail fed = [0x08, 0x09, 0x0a, 0x0b, 0x0c, 0x0d, 0x0e] := by decide
/-- P2 commands 2 to 4: append, append, complete exactly. -/
theorem test_feed_pieces :
    let s := after (execAll [.feed [0, 1, 2], .feed [3, 4, 5, 6]] constructed)
    let t := after (exec (.feed [7]) s)
    s.v = constructed.v ∧ liveTail s = [0, 1, 2, 3, 4, 5, 6] ∧ t.ntail = 0 ∧ t.v = fed.v := by decide
/-- P4 commands 7 and 8. -/
theorem test_feedt : answer (execAll [.feedt [0x61, 0x62, 0x63], .result] constructed) =
    [0x00, 0xa5, 0x07, 0x20, 0xaa, 0x53, 0xfa, 0xbc, 0x5d] := by decide
/-- P1 command 3: the source's known answer. -/
theorem test_result : answer (exec .result fed) = [0x00, 0xe5, 0x45, 0xbe, 0x49, 0x61, 0xca, 0x29, 0xa1] := by decide
/-- The empty message under the standard key, section 5 row L = 0. -/
theorem test_result_empty : answer (exec .result constructed) =
    [0x00, 0x31, 0x0e, 0x0e, 0xdd, 0x47, 0xdb, 0x6f, 0x72] := by decide
/-- Section 5 row L = 8, before any construction: a length the rejected formula of R89 gets wrong. -/
theorem test_hash : answer (exec (.hash (ascending 16) (ascending 8)) State.reset) =
    [0x00, 0x62, 0x24, 0x93, 0x9a, 0x79, 0xf5, 0xf5, 0x93] := by decide
/-- P5 command 4: a 15-byte key. -/
theorem test_hash_keyLength : answer (exec (.hash (ascending 15) [0]) State.reset) = [0x02] := by decide
/-- P5 command 26. -/
theorem test_round : answer (exec (.round 1 0 0 0) State.reset) =
    [0x00, 0, 0, 0, 0, 1, 0, 0, 0, 1, 0, 2, 0, 0, 0, 0, 0, 0, 0, 0, 0, 1, 0, 0, 0, 0, 0, 0, 0, 1, 0, 0, 0] := by decide
/-- R65's worked example, the last legal offset and the first illegal one. -/
theorem test_ldle64 : answer (exec (.ldle64 (ascending 10) 2) State.reset) = [0x00, 2, 3, 4, 5, 6, 7, 8, 9] ∧
    answer (exec (.ldle64 (ascending 10) 3) State.reset) = [0x03] := by decide
/-- P5 command 12: the sum does not wrap. -/
theorem test_ldle64_no_wrap : answer (exec (.ldle64 (ascending 16) (2 ^ 64 - 1)) State.reset) = [0x03] := by decide
/-- P5 command 21. -/
theorem test_rotl : answer (exec (.rotl 1 63) State.reset) = [0x00, 0, 0, 0, 0, 0, 0, 0, 0x80] := by decide

/-! ## Witnesses: states and operands that meet the hypotheses of each statement -/

/-- DecodeOfEncode, at the largest offset; EncodeOfDecode and `¬ IllegalPacket` at the shortest packet. -/
theorem witness_roundTrip : (Instr.ldle64 [] (2 ^ 64 - 1)).wellFormed = true ∧ decode [0x03] = .ok .reset := by decide
theorem witness_legalPacket : ¬ IllegalPacket [0x03] := by simp [IllegalPacket]
/-- IllegalPacketsRaise: one packet of each kind, at the boundary of its length or field. -/
theorem witness_illegalPackets : IllegalPacket [] ∧ IllegalPacket [0x0b] ∧ IllegalPacket (0x01 :: ascending 15) ∧
    IllegalPacket [0x03, 0x00] ∧ IllegalPacket [0x07] ∧ IllegalPacket [0x07, 0x01] ∧
    IllegalPacket (0x08 :: ascending 31) ∧ IllegalPacket (0x09 :: ascending 7) ∧
    IllegalPacket (0x0a :: (ascending 8 ++ [0x40])) := by
  simp [IllegalPacket, ascending, List.range_succ]
theorem witness_pendingPacket : (presenting fed (.packet [0x06])).pending = [.packet [0x06]] ∧
    decode [0x06] = .ok .result := by decide
theorem witness_idle : State.reset.pending = [] := rfl
theorem witness_pendingReset : (presenting fed .hardwareReset).pending = .hardwareReset :: [] := rfl
theorem witness_memRead : 2 + 8 ≤ (ascending 10).length ∧ (ascending 10).length < 3 + 8 := by decide
theorem witness_rotCount : (63 : RotCount) ≠ 0 ∧ 63 < 64 := by decide
/-- FinalWordBytes at nt = 7 and at nt = 0. -/
theorem witness_finalWord : 255 < 256 ∧ 7 ≤ 7 ∧ 7 ≤ (ascending 7).length ∧ 0 ≤ ([] : Bytes).length := by decide
theorem witness_keyLength : (ascending 16).length = 16 ∧ (ascending 15).length ≠ 16 ∧ (ascending 17).length ≠ 16 := by decide
theorem witness_hvalid : fed.hvalid = true ∧ constructed.hvalid = true ∧ State.reset.hvalid = false := by decide
/-- RaisingWritesNothing and RaisingRepeats: FEED with no hasher. -/
theorem witness_raises : exec (.feed [0]) State.reset = .next { State.reset with responses := [[0x04]] } ∧
    (0x04 : Byte) ≠ 0x00 := ⟨rfl, by decide⟩
/-- RaisingWritesNothing of a packet: FEED's with no hasher. -/
theorem witness_packetRaises : step (presenting State.reset (.packet [0x04])) =
    .next { State.reset with responses := [[0x04]] } := rfl
/-- The last hypothesis of RaisingRepeats at another state. -/
theorem witness_raisesElsewhere : (presenting State.reset .hardwareReset).hvalid = State.reset.hvalid := rfl
/-- AccessTableFrame: HASH meets every condition at once. -/
theorem witness_frame : (∃ t, exec (.hash (ascending 16) []) fed = .next t) ∧
    (∀ k0 k1, Instr.hash (ascending 16) [] ≠ .new k0 k1) ∧ (∀ key, Instr.hash (ascending 16) [] ≠ .newb key) ∧
    Instr.hash (ascending 16) [] ≠ .reset ∧ (∀ c, Instr.hash (ascending 16) [] ≠ .feed c) ∧
    ∀ c, Instr.hash (ascending 16) [] ≠ .feedt c := by
  refine ⟨⟨_, exec_hash_of_length _ _ (by decide)⟩, ?_, ?_, ?_, ?_, ?_⟩ <;> intros <;> exact Instr.noConfusion
/-- KeyIsNotObserved: FEED on a constructed hasher. -/
theorem witness_keyIsNotObserved : (∃ t, exec (.feed [0]) constructed = .next t) ∧
    (∀ k0 k1, Instr.feed [0] ≠ .new k0 k1) ∧ (∀ key, Instr.feed [0] ≠ .newb key) ∧ Instr.feed [0] ≠ .reset := by
  obtain ⟨t, -, -, e⟩ := exec_feed_of_valid [0] (show constructed.hvalid = true from by decide)
  exact ⟨⟨_, e⟩, by intros; exact Instr.noConfusion, by intros; exact Instr.noConfusion, Instr.noConfusion⟩
/-- LengthReadModulo256: 15 bytes fed, and 15 + 256. -/
theorem witness_lengthModulo256 : (271 : LenWord).toNat % 256 = fed.len.toNat % 256 := by decide
/-- DeadTailIsNotObserved: two states that differ, in TAIL[7] alone, and hold the same hasher. -/
theorem witness_deadTail : SameHasher fed fedOtherTail ∧ fed.tail ≠ fedOtherTail.tail :=
  ⟨⟨rfl, rfl, rfl, rfl, by decide, rfl⟩, by decide⟩
/-- ClosedFormOfMessage, ResultIsReference: the empty message and a message of 15 bytes. -/
theorem witness_represents : Represents constructed [] ∧ ∃ s, Represents s (ascending 15) := by
  have r : Represents constructed [] := represents_nil (by decide) (by decide) (by decide) (by decide)
  obtain ⟨t, -, f, -⟩ := exec_feed_of_valid (ascending 15) r.hvalid
  exact ⟨r, t, represents_append r f⟩
/-- ClosedFormOfMessage, last clause: a hasher in the closed form that steps on a FEED, on a malformed
packet and on a hardware reset. -/
theorem witness_closedFormStep : ∀ x ∈ [HostInput.packet [0x04, 0x61], .packet [0x00], .hardwareReset],
    Represents (presenting constructed x) [] ∧ ∃ t, step (presenting constructed x) = .next t := by
  intro x hx
  have r := witness_represents.1
  refine ⟨⟨r.hvalid, r.v, r.len, r.ntail, r.tail⟩, ?_⟩
  simp only [List.mem_cons, List.not_mem_nil, or_false] at hx
  rcases hx with rfl | rfl | rfl <;> exact ⟨_, rfl⟩
/-- StepKeepsClosedForm, TailCountIsLengthModEight: a coherent state with a hasher, which steps. -/
theorem witness_coherent : Coherent constructed ∧ constructed.hvalid = true ∧
    step constructed = .next constructed :=
  ⟨fun _ => ⟨[], witness_represents.1⟩, by decide, rfl⟩
/-- ChunkingInvariance: P2's key and pieces. -/
theorem witness_chunks : (ascending 16).length = 16 ∧
    [[0, 1, 2], [3, 4, 5, 6], [7], [], [8, 9, 10, 11, 12, 13, 14]].flatten = ascending 15 := by decide

end Sys2Proof.Tests
end

section
/-! The port: what a step and a packet do, one equation per case (spec/00_scope.md R9, spec/30_encoding.md R44, R56). -/

namespace Sys2Proof.Proofs

open Sys2Proof.Machine

/-- R9, R44: the one input a step takes is the oldest one presented. -/
theorem step_of_pending {s : State} {x : HostInput} {rest : List HostInput} (h : s.pending = x :: rest) :
    step s = runInput x (s.setPending rest) := by
  simp [step, h]

theorem step_of_packet {s : State} {p : Bytes} {rest : List HostInput} (h : s.pending = .packet p :: rest) :
    step s = runPacket p (s.setPending rest) :=
  step_of_pending h

theorem runPacket_of_decode {p : Bytes} {i : Instr} (h : decode p = .ok i) (s : State) :
    runPacket p s = exec i s := by
  simp [runPacket, h]

/-- Settles O7: the packet is taken off the port, and what it decodes to is executed there. -/
theorem stepRunsDecodedCommand : Obligations.StepRunsDecodedCommand := by
  intro s p rest i hpending hdecode
  calc step s
      _ = runPacket p (s.setPending rest) := step_of_packet hpending
      _ = exec i (s.setPending rest) := runPacket_of_decode hdecode _

end Sys2Proof.Proofs
end

section
/-! The decoder against R56's table (spec/30_encoding.md): one lemma per format that checks something, then all opcodes,
and the step's inversion lemma. -/

namespace Sys2Proof.Proofs

open Sys2Proof.Machine Sys2Proof.Laws

theorem decodeNew_toOption (p : Bytes) :
    (decodeNew p).toOption = if p.length = 17 then some (.new (wordAt p 1) (wordAt p 9)) else none := by
  rw [decodeNew]
  split
  next h => rw [wordField_of_le (by omega), wordField_of_le (by omega)]; rfl
  next => rfl

theorem decodeZ_toOption (op : Byte) (i : Instr) (p : Bytes) :
    (decodeZ op i p).toOption = if p.length = 1 then some i else none := by
  rw [decodeZ]
  split <;> rfl

theorem decodeHash_toOption (p : Bytes) :
    (decodeHash p).toOption =
      if 2 ≤ p.length ∧ 2 + (p.getD 1 0).toNat ≤ p.length then
        some (.hash ((p.drop 2).take (p.getD 1 0).toNat) (p.drop (2 + (p.getD 1 0).toNat)))
      else none := by
  match p with
  | [] => rfl
  | [_] => rfl
  | op :: klen :: rest =>
    by_cases h : klen.toNat ≤ rest.length
    · simp [decodeHash, h, Except.toOption, Nat.add_comm 2]
    · simp [decodeHash, h, Except.toOption, Nat.add_comm 2]

theorem decodeRound_toOption (p : Bytes) :
    (decodeRound p).toOption =
      if p.length = 33 then some (.round (wordAt p 1) (wordAt p 9) (wordAt p 17) (wordAt p 25)) else none := by
  rw [decodeRound]
  split
  next h =>
    rw [wordField_of_le (by omega), wordField_of_le (by omega), wordField_of_le (by omega), wordField_of_le (by omega)]
    rfl
  next => rfl

theorem decodeLdle64_toOption (p : Bytes) :
    (decodeLdle64 p).toOption = if 9 ≤ p.length then some (.ldle64 (p.drop 9) (wordAt p 1).toNat) else none := by
  rw [decodeLdle64]
  split
  next h => rw [wordField_of_le (by omega)]; rfl
  next => rfl

/-- R53: `bb[7:6] = 0` says that the count byte is below 64. -/
theorem reservedBits_eq_zero_iff (bb : Byte) : bb.extractLsb' 6 2 = 0 ↔ bb.toNat < 64 := by
  rw [← BitVec.toNat_inj, BitVec.extractLsb'_toNat, Nat.shiftRight_eq_div_pow]
  have := bb.isLt
  simp
  omega

/-- R53: the count is the byte's low six bits. -/
theorem countBits_eq (bb : Byte) : bb.extractLsb' 0 6 = BitVec.ofNat 6 bb.toNat := by
  simp [BitVec.extractLsb']

theorem decodeRotl_toOption (p : Bytes) :
    (decodeRotl p).toOption =
      if p.length = 10 ∧ (p.getD 9 0).toNat < 64 then
        some (.rotl (wordAt p 1) (BitVec.ofNat 6 (p.getD 9 0).toNat))
      else none := by
  by_cases hlen : p.length = 10
  · rw [decodeRotl, if_pos hlen, wordField_of_le (by omega)]
    simp only [bind, Except.bind, pure, Except.pure, reservedBits_eq_zero_iff, countBits_eq, hlen, true_and]
    split <;> rfl
  · rw [decodeRotl, if_neg hlen, if_neg (fun h => hlen h.1)]
    rfl

/-- R56: the decoder is the table, opcode by opcode. -/
theorem decode_toOption (p : Bytes) : (decode p).toOption = decodeR56 p := by
  match p with
  | [] => rfl
  | op :: body =>
    rw [decode]
    split
    next h => obtain rfl : op = 0x01 := BitVec.eq_of_toNat_eq h; exact decodeNew_toOption _
    next h => obtain rfl : op = 0x02 := BitVec.eq_of_toNat_eq h; rfl
    next h => obtain rfl : op = 0x03 := BitVec.eq_of_toNat_eq h; exact decodeZ_toOption _ _ _
    next h => obtain rfl : op = 0x04 := BitVec.eq_of_toNat_eq h; rfl
    next h => obtain rfl : op = 0x05 := BitVec.eq_of_toNat_eq h; rfl
    next h => obtain rfl : op = 0x06 := BitVec.eq_of_toNat_eq h; exact decodeZ_toOption _ _ _
    next h => obtain rfl : op = 0x07 := BitVec.eq_of_toNat_eq h; exact decodeHash_toOption _
    next h => obtain rfl : op = 0x08 := BitVec.eq_of_toNat_eq h; exact decodeRound_toOption _
    next h => obtain rfl : op = 0x09 := BitVec.eq_of_toNat_eq h; exact decodeLdle64_toOption _
    next h => obtain rfl : op = 0x0a := BitVec.eq_of_toNat_eq h; exact decodeRotl_toOption _
    next h1 h2 h3 h4 h5 h6 h7 h8 h9 h10 =>
      have ne (c : Byte) (hc : op.toNat = c.toNat → False) : op ≠ c := fun e => hc (congrArg _ e)
      simp [decodeR56, Except.toOption, ne 1#8 h1, ne 2#8 h2, ne 3#8 h3, ne 4#8 h4, ne 5#8 h5, ne 6#8 h6,
        ne 7#8 h7, ne 8#8 h8, ne 9#8 h9, ne 10#8 h10]

/-- Everything a step can do, by the input it takes: none, the reset event, a packet that R56's table
reads as a command, or a malformed one. -/
theorem step_cases {s t : State} (h : step s = .next t) :
    (s.pending = [] ∧ t = s) ∨
      (∃ rest, s.pending = .hardwareReset :: rest ∧ t = (s.setPending rest).hardwareReset) ∨
      (∃ p rest i, s.pending = .packet p :: rest ∧ decodeR56 p = some i ∧
        exec i (s.setPending rest) = .next t) ∨
      ∃ p rest, s.pending = .packet p :: rest ∧ decodeR56 p = none ∧
        t = (s.setPending rest).respond (.error .illegalCommand) := by
  match hp : s.pending with
  | [] =>
    rw [step, hp] at h
    cases h
    exact .inl ⟨rfl, rfl⟩
  | .hardwareReset :: rest =>
    rw [step_of_pending hp] at h
    cases h
    exact .inr (.inl ⟨rest, rfl, rfl⟩)
  | .packet p :: rest =>
    have htable := decode_toOption p
    rw [step_of_packet hp] at h
    cases hd : decode p with
    | ok i =>
      rw [runPacket_of_decode hd] at h
      rw [hd] at htable
      exact .inr (.inr (.inl ⟨p, rest, i, rfl, htable.symm, h⟩))
    | error e =>
      rw [runPacket, hd] at h
      rw [hd] at htable
      cases h
      exact .inr (.inr (.inr ⟨p, rest, rfl, htable.symm, rfl⟩))

end Sys2Proof.Proofs
end

section
/-! What a command does to the registers (spec/10_state.md R26): one lemma per command not yet covered by
Laws/Exec.lean, one inversion lemma over all ten, and the closed form and the hasher equality under the updates. -/

namespace Sys2Proof.Proofs

open Sys2Proof.Machine Sys2Proof.Laws

/-- R74: FEEDT is FEED. -/
theorem exec_feedt (text : Bytes) (s : State) : exec (.feedt text) s = exec (.feed text) s :=
  execFeedt_eq text s

/-- What RESULT answers (R77), read off the live tail alone. -/
def resultReply (s : State) : Reply :=
  if s.hvalid then .ok [finalize s.v (finalword (s.len.toNat % 256) (liveTail s) s.ntail.toNat)]
  else .error .noHasher

/-- RESULT writes no register. -/
theorem exec_result (s : State) : exec .result s = .next (s.respond (resultReply s)) := by
  cases h : s.hvalid with
  | true => rw [exec_result_of_valid h, finalword_liveTail, resultReply, if_pos h]
  | false => rw [exec_result_of_invalid h, resultReply, if_neg (by simp [h])]

/-- R91: HASH answers the same at every state and writes no register. -/
theorem exec_hash (key msg : Bytes) : ∃ r, ∀ s, exec (.hash key msg) s = .next (s.respond r) := by
  by_cases h : key.length = 16
  · exact ⟨_, fun s => exec_hash_of_length msg s h⟩
  · exact ⟨_, fun s => exec_hash_of_length_ne msg s h⟩

/-- R66: ROUND answers the same at every state and writes no register. -/
theorem exec_round (v0 v1 v2 v3 : Word) : ∃ r, ∀ s, exec (.round v0 v1 v2 v3) s = .next (s.respond r) :=
  ⟨_, fun _ => rfl⟩

/-- R65: LDLE64 answers the same at every state and writes no register. -/
theorem exec_ldle64 (buf : Bytes) (off : Nat) : ∃ r, ∀ s, exec (.ldle64 buf off) s = .next (s.respond r) := by
  by_cases h : off + 8 ≤ buf.length
  · exact ⟨_, fun s => exec_ldle64_of_le s h⟩
  · exact ⟨_, fun s => exec_ldle64_of_lt s (by omega)⟩

/-- R64: ROTL answers the same at every state and writes no register. -/
theorem exec_rotl (x : Word) (b : RotCount) : ∃ r, ∀ s, exec (.rotl x b) s = .next (s.respond r) :=
  ⟨_, fun _ => rfl⟩

/-- R100: with no hasher the four commands that need one raise NoHasher. -/
theorem exec_of_no_hasher {s : State} (h : s.hvalid = false) (chunk : Bytes) :
    ∀ i ∈ [Instr.feed chunk, .feedt chunk, .result, .reset], exec i s = .next (s.respond (.error .noHasher)) := by
  simp [exec_feed_of_invalid chunk h, exec_feedt, exec_result_of_invalid h, exec_reset_of_invalid h]

/-- The command leaves the message and its key (R20) as they were. -/
def KeepsMessage (i : Instr) : Prop := (∀ k, keyAfter i k = k) ∧ ∀ m, messageAfter i m = m

/-- The registers a command can have written in the state it leaves, by R26's table. -/
inductive Writes (s : State) : Instr → State → Prop where
  | nothing {i : Instr} (r : Reply) (keeps : s.hvalid = true → KeepsMessage i) : Writes s i (s.respond r)
  | new (k0 k1 : Word) : Writes s (.new k0 k1) ((s.construct ⟨k0, k1⟩).respond (.ok []))
  | newb {key : Bytes} (hlen : key.length = 16) :
      Writes s (.newb key) ((s.construct ⟨wordAt key 0, wordAt key 8⟩).respond (.ok []))
  | reset : Writes s .reset (s.startMessage.respond (.ok []))
  | feed {chunk : Bytes} {u : State} (fed : FedTo s u chunk.length (liveTail s ++ chunk)) :
      Writes s (.feed chunk) (u.respond (.ok []))
  | feedt {text : Bytes} {u : State} (fed : FedTo s u text.length (liveTail s ++ text)) :
      Writes s (.feedt text) (u.respond (.ok []))

/-- Everything a command can do to the registers: it ends, and has written what R26's row admits. -/
theorem exec_writes (i : Instr) (s : State) : ∃ t, exec i s = .next t ∧ Writes s i t := by
  cases i with
  | new k0 k1 => exact ⟨_, exec_new k0 k1 s, .new k0 k1⟩
  | newb key =>
    by_cases h : key.length = 16
    · exact ⟨_, exec_newb_of_length s h, .newb h⟩
    · exact ⟨_, exec_newb_of_length_ne s h, .nothing _ fun _ => ⟨fun _ => if_neg h, fun _ => if_neg h⟩⟩
  | reset =>
    cases h : s.hvalid with
    | true => exact ⟨_, exec_reset_of_valid h, .reset⟩
    | false => exact ⟨_, exec_reset_of_invalid h, .nothing _ (by simp [h])⟩
  | feed chunk =>
    cases h : s.hvalid with
    | true => obtain ⟨u, -, fed, e⟩ := exec_feed_of_valid chunk h; exact ⟨_, e, .feed fed⟩
    | false => exact ⟨_, exec_feed_of_invalid chunk h, .nothing _ (by simp [h])⟩
  | feedt text =>
    rw [exec_feedt]
    cases h : s.hvalid with
    | true => obtain ⟨u, -, fed, e⟩ := exec_feed_of_valid text h; exact ⟨_, e, .feedt fed⟩
    | false => exact ⟨_, exec_feed_of_invalid text h, .nothing _ (by simp [h])⟩
  | result => exact ⟨_, exec_result s, .nothing _ fun _ => ⟨fun _ => rfl, fun _ => rfl⟩⟩
  | hash key msg =>
    obtain ⟨r, e⟩ := exec_hash key msg
    exact ⟨_, e s, .nothing _ fun _ => ⟨fun _ => rfl, fun _ => rfl⟩⟩
  | round v0 v1 v2 v3 =>
    obtain ⟨r, e⟩ := exec_round v0 v1 v2 v3
    exact ⟨_, e s, .nothing _ fun _ => ⟨fun _ => rfl, fun _ => rfl⟩⟩
  | ldle64 buf off =>
    obtain ⟨r, e⟩ := exec_ldle64 buf off
    exact ⟨_, e s, .nothing _ fun _ => ⟨fun _ => rfl, fun _ => rfl⟩⟩
  | rotl x b =>
    obtain ⟨r, e⟩ := exec_rotl x b
    exact ⟨_, e s, .nothing _ fun _ => ⟨fun _ => rfl, fun _ => rfl⟩⟩

theorem writes_of_exec {i : Instr} {s t : State} (h : exec i s = .next t) : Writes s i t := by
  obtain ⟨u, e, w⟩ := exec_writes i s
  rw [h] at e
  cases e
  exact w

/-- A new hasher holds its key and the empty message (R70, R71). -/
theorem holds_construct (s : State) (k : Key) (r : Reply) : Holds ((s.construct k).respond r) k [] :=
  ⟨rfl, represents_nil rfl rfl rfl rfl⟩

/-- A restarted message is the empty one under the key held (R72). -/
theorem holds_startMessage {s : State} (h : s.hvalid = true) (r : Reply) :
    Holds (s.startMessage.respond r) s.k [] :=
  ⟨rfl, represents_nil h rfl rfl rfl⟩

/-- Taking an input off the port changes no register. -/
theorem represents_setPending {s : State} {m : Bytes} (r : Represents s m) (rest : List HostInput) :
    Represents (s.setPending rest) m :=
  ⟨r.hvalid, r.v, r.len, r.ntail, r.tail⟩

theorem sameHasher_respond {s s' : State} (h : SameHasher s s') (r : Reply) :
    SameHasher (s.respond r) (s'.respond r) :=
  ⟨h.k, h.v, h.len, h.ntail, h.tail, h.hvalid⟩

theorem liveTail_of_ntail_eq_zero {s : State} (h : s.ntail = 0) : liveTail s = [] := by
  simp [liveTail, h]

/-- With NTAIL = 0 no byte of TAIL means anything (R16). -/
theorem sameHasher_startMessage {s s' : State} (h : SameHasher s s') :
    SameHasher s.startMessage s'.startMessage :=
  ⟨h.k, by simp [h.k], rfl, rfl, by rw [liveTail_of_ntail_eq_zero rfl, liveTail_of_ntail_eq_zero rfl], h.hvalid⟩

theorem sameHasher_construct (s s' : State) (k : Key) : SameHasher (s.construct k) (s'.construct k) :=
  ⟨rfl, rfl, rfl, rfl, by rw [liveTail_of_ntail_eq_zero rfl, liveTail_of_ntail_eq_zero rfl], rfl⟩

/-- RESULT reads nothing of TAIL but its live bytes (R16). -/
theorem resultReply_of_sameHasher {s s' : State} (h : SameHasher s s') : resultReply s' = resultReply s := by
  rw [resultReply, resultReply, h.hvalid, h.v, h.len, h.tail, h.ntail]

end Sys2Proof.Proofs
end
section
/-! The closed form of R20 and the invariant of R19 (spec/10_state.md), over commands and over steps. -/

namespace Sys2Proof.Proofs

open Sys2Proof.Machine Sys2Proof.Laws

/-- R20 for one command: it leaves the key and the message after it. -/
theorem holds_of_writes {i : Instr} {s t : State} {m : Bytes} (r : Represents s m) (w : Writes s i t) :
    Holds t (keyAfter i s.k) (messageAfter i m) := by
  cases w with
  | nothing q keeps =>
    obtain ⟨hkey, hmessage⟩ := keeps r.hvalid
    rw [hkey, hmessage]
    exact ⟨rfl, represents_respond r q⟩
  | new k0 k1 => exact holds_construct s _ _
  | newb hlen =>
    simp only [keyAfter, messageAfter, if_pos hlen]
    exact holds_construct s _ _
  | reset => exact holds_startMessage r.hvalid _
  | feed fed => exact ⟨fed.k, represents_respond (represents_append r fed) _⟩
  | feedt fed => exact ⟨fed.k, represents_respond (represents_append r fed) _⟩

/-- R20 for one step: R56's verdict on the packet says which command, if any, the step ran. -/
theorem holdsAfterInput_of_step {s t : State} {m : Bytes} (r : Represents s m) (h : step s = .next t) :
    HoldsAfterInput s.pending s.k m t := by
  have taken (rest : List HostInput) : Represents (s.setPending rest) m := represents_setPending r rest
  obtain ⟨hp, rfl⟩ | ⟨rest, hp, rfl⟩ | ⟨p, rest, i, hp, hd, e⟩ | ⟨p, rest, hp, hd, rfl⟩ := step_cases h
  · simp only [HoldsAfterInput, hp]
    exact ⟨rfl, r⟩
  · simp only [HoldsAfterInput, hp, State.hardwareReset_hvalid]
  · simp only [HoldsAfterInput, hp, hd]
    exact holds_of_writes (s := s.setPending rest) (taken rest) (writes_of_exec e)
  · simp only [HoldsAfterInput, hp, hd]
    exact ⟨rfl, represents_respond (taken rest) _⟩

/-- Settles O40: NEW and NEWB construct, `holds_of_writes` is the step lemma of commands, and
`holdsAfterInput_of_step` that of the port's inputs. -/
theorem closedFormOfMessage : Obligations.ClosedFormOfMessage := by
  refine ⟨fun k0 k1 s => ?_, fun key s hlen => ?_, fun i s m r => ?_, fun s t m r h => ?_⟩
  · exact ⟨_, exec_new k0 k1 s, holds_construct s _ _⟩
  · exact ⟨_, exec_newb_of_length s hlen, holds_construct s _ _⟩
  · obtain ⟨t, e, w⟩ := exec_writes i s
    exact ⟨t, e, holds_of_writes r w⟩
  · exact holdsAfterInput_of_step r h

theorem coherent_of_no_hasher {s : State} (h : s.hvalid = false) : Coherent s := by
  simp [Coherent, h]

theorem coherent_of_holds {s : State} {k : Key} {m : Bytes} (h : Holds s k m) : Coherent s := fun _ => ⟨m, h.2⟩

/-- R19 for one command: with a hasher by the closed form, and without one because only NEW and NEWB set
HVALID. -/
theorem coherent_of_writes {i : Instr} {s t : State} (c : Coherent s) (w : Writes s i t) : Coherent t := by
  cases h : s.hvalid with
  | true =>
    obtain ⟨m, r⟩ := c h
    exact coherent_of_holds (holds_of_writes r w)
  | false =>
    cases w with
    | nothing q _ => exact coherent_of_no_hasher h
    | new k0 k1 => exact coherent_of_holds (holds_construct s _ _)
    | newb _ => exact coherent_of_holds (holds_construct s _ _)
    | reset => exact coherent_of_no_hasher h
    | feed fed => exact coherent_of_no_hasher (fed.hvalid.trans h)
    | feedt fed => exact coherent_of_no_hasher (fed.hvalid.trans h)

/-- Settles O42, by the input the step takes. -/
theorem stepKeepsClosedForm : Obligations.StepKeepsClosedForm := by
  intro s t c h
  have taken (rest : List HostInput) : Coherent (s.setPending rest) := fun hv =>
    (c hv).imp fun _ r => represents_setPending r rest
  obtain ⟨-, rfl⟩ | ⟨rest, -, rfl⟩ | ⟨p, rest, i, -, -, e⟩ | ⟨p, rest, -, -, rfl⟩ := step_cases h
  · exact c
  · exact coherent_of_no_hasher (State.hardwareReset_hvalid _)
  · exact coherent_of_writes (taken rest) (writes_of_exec e)
  · exact fun hv => (taken rest hv).imp fun _ r => represents_respond r _

/-- Settles O43. -/
theorem resetIsCoherent : Obligations.ResetIsCoherent :=
  ⟨coherent_of_no_hasher rfl, fun _ => coherent_of_no_hasher⟩

/-- Settles O44: both count the message's bytes, LEN modulo a multiple of 8. -/
theorem tailCountIsLengthModEight : Obligations.TailCountIsLengthModEight := by
  intro s c hvalid
  obtain ⟨m, r⟩ := c hvalid
  rw [r.ntail, r.len, BitVec.toNat_ofNat]
  omega

end Sys2Proof.Proofs
end
section
/-! What no command observes (spec/10_state.md): dead tail bytes (R16), the key (R13), and LEN beyond its low
8 bits (R15). -/

namespace Sys2Proof.Proofs

open Sys2Proof.Machine Sys2Proof.Laws

/-- The command answers the same at `s` and at `s'` and leaves the same hasher. -/
def AnswersAlike (i : Instr) (s s' : State) : Prop :=
  ∃ t t' q, exec i s = .next t ∧ exec i s' = .next t' ∧ SameHasher t t' ∧
    t.responses = s.responses ++ [q] ∧ t'.responses = s'.responses ++ [q]

/-- Two ends of a command with one reply, from states that hold the same hasher. -/
theorem answersAlike_of_respond {i : Instr} {s s' u u' : State} {r : Reply}
    (e : exec i s = .next (u.respond r)) (e' : exec i s' = .next (u'.respond r)) (h : SameHasher u u')
    (hu : u.responses = s.responses) (hu' : u'.responses = s'.responses) : AnswersAlike i s s' :=
  ⟨_, _, r.packet, e, e', sameHasher_respond h r, by rw [State.respond_responses, hu],
    by rw [State.respond_responses, hu']⟩

/-- A command that reads and writes no register. -/
theorem answersAlike_of_stateless {i : Instr} {s s' : State} (h : SameHasher s s')
    (e : ∃ r, ∀ s, exec i s = .next (s.respond r)) : AnswersAlike i s s' := by
  obtain ⟨r, e⟩ := e
  exact answersAlike_of_respond (e s) (e s') h rfl rfl

theorem answersAlike_feed (chunk : Bytes) {s s' : State} (h : SameHasher s s') :
    AnswersAlike (.feed chunk) s s' := by
  cases hv : s.hvalid with
  | true =>
    obtain ⟨u, -, fed, e⟩ := exec_feed_of_valid chunk hv
    obtain ⟨u', -, fed', e'⟩ := exec_feed_of_valid chunk (h.hvalid.trans hv)
    exact answersAlike_of_respond e e' (sameHasher_fedTo h fed fed') fed.responses fed'.responses
  | false =>
    exact answersAlike_of_respond (exec_feed_of_invalid chunk hv) (exec_feed_of_invalid chunk (h.hvalid.trans hv))
      h rfl rfl

/-- Settles O39, command by command: RESULT and FEED read the live tail only. -/
theorem deadTailIsNotObserved : Obligations.DeadTailIsNotObserved := by
  intro i s s' h
  cases i with
  | new k0 k1 =>
    exact answersAlike_of_respond (exec_new k0 k1 s) (exec_new k0 k1 s') (sameHasher_construct s s' _) rfl rfl
  | newb key =>
    by_cases hlen : key.length = 16
    · exact answersAlike_of_respond (exec_newb_of_length s hlen) (exec_newb_of_length s' hlen)
        (sameHasher_construct s s' _) rfl rfl
    · exact answersAlike_of_respond (exec_newb_of_length_ne s hlen) (exec_newb_of_length_ne s' hlen) h rfl rfl
  | reset =>
    cases hv : s.hvalid with
    | true =>
      exact answersAlike_of_respond (exec_reset_of_valid hv) (exec_reset_of_valid (h.hvalid.trans hv))
        (sameHasher_startMessage h) rfl rfl
    | false =>
      exact answersAlike_of_respond (exec_reset_of_invalid hv) (exec_reset_of_invalid (h.hvalid.trans hv)) h rfl rfl
  | feed chunk => exact answersAlike_feed chunk h
  | feedt text => simpa only [AnswersAlike, exec_feedt] using answersAlike_feed text h
  | result =>
    have e' := exec_result s'
    rw [resultReply_of_sameHasher h] at e'
    exact answersAlike_of_respond (exec_result s) e' h rfl rfl
  | hash key msg => exact answersAlike_of_stateless h (exec_hash key msg)
  | round v0 v1 v2 v3 => exact answersAlike_of_stateless h (exec_round v0 v1 v2 v3)
  | ldle64 buf off => exact answersAlike_of_stateless h (exec_ldle64 buf off)
  | rotl x b => exact answersAlike_of_stateless h (exec_rotl x b)

/-- Steps 2 and 3 of FEED neither read nor write K. -/
theorem feedFrom_with_key {chunk : Bytes} {off : Nat} (h : off ≤ chunk.length) {v : Mix} {tl : Vector Byte 8}
    {n : LenWord} {s t : State} (k : Key) (e : feedFrom chunk off v tl n s = .ok t) :
    feedFrom chunk off v tl n { s with k := k } = .ok { t with k := k } := by
  rw [feedFrom_eq h] at e ⊢
  cases e
  rfl

/-- FEED's body neither reads nor writes K, in all three paths of R73. -/
theorem feedBody_with_key {chunk : Bytes} {s t : State} (k : Key) (e : feedBody chunk s = .ok t) :
    feedBody chunk { s with k := k } = .ok { t with k := k } := by
  unfold feedBody at e ⊢
  by_cases hempty : s.ntail.toNat = 0
  · rw [if_pos hempty] at e ⊢
    exact feedFrom_with_key (Nat.zero_le _) k e
  by_cases hshort : chunk.length < 8 - s.ntail.toNat
  · rw [if_neg hempty, if_pos hshort] at e ⊢
    cases e
    rfl
  · rw [if_neg hempty, if_neg hshort] at e ⊢
    have hload : le64 (writeTail s.tail s.ntail.toNat (chunk.take (8 - s.ntail.toNat))).toList 0 = .ok _ :=
      le64_of_le (by simp)
    simp only [hload, bind, Except.bind] at e ⊢
    exact feedFrom_with_key (by omega) k e

/-- The command neither reads nor writes K at `s`. -/
def IgnoresKey (i : Instr) (s : State) : Prop :=
  ∀ (t : State) (k : Key), exec i s = .next t → exec i { s with k := k } = .next { t with k := k }

/-- A command that only answers, and the same under every key. -/
theorem ignoresKey_of_respond {i : Instr} {s : State} {r : Reply}
    (e : ∀ k, exec i { s with k := k } = .next (State.respond { s with k := k } r)) : IgnoresKey i s := by
  intro t k h
  have e0 := e s.k
  rw [h] at e0
  cases e0
  exact e k

theorem ignoresKey_of_stateless {i : Instr} (s : State) (e : ∃ r, ∀ s, exec i s = .next (s.respond r)) :
    IgnoresKey i s := by
  obtain ⟨r, e⟩ := e
  exact ignoresKey_of_respond fun _ => e _

theorem ignoresKey_feed (chunk : Bytes) (s : State) : IgnoresKey (.feed chunk) s := by
  cases hv : s.hvalid with
  | true =>
    intro t k h
    obtain ⟨u, hu, -, e⟩ := exec_feed_of_valid chunk hv
    obtain ⟨u', hu', -, e'⟩ := exec_feed_of_valid chunk (s := { s with k := k }) hv
    rw [feedBody_with_key k hu] at hu'
    rw [h] at e
    cases e
    cases hu'
    exact e'
  | false => exact ignoresKey_of_respond fun _ => exec_feed_of_invalid chunk hv

/-- Settles O38: FEED by its body, RESULT by its reply, the rest read no register. -/
theorem keyIsNotObserved : Obligations.KeyIsNotObserved := by
  intro i s t k hnew hnewb hreset
  suffices IgnoresKey i s from this t k
  cases i with
  | new k0 k1 => exact absurd rfl (hnew k0 k1)
  | newb key => exact absurd rfl (hnewb key)
  | reset => exact absurd rfl hreset
  | feed chunk => exact ignoresKey_feed chunk s
  | feedt text => simpa only [IgnoresKey, exec_feedt] using ignoresKey_feed text s
  | result => exact ignoresKey_of_respond (r := resultReply s) fun _ => exec_result _
  | hash key msg => exact ignoresKey_of_stateless s (exec_hash key msg)
  | round v0 v1 v2 v3 => exact ignoresKey_of_stateless s (exec_round v0 v1 v2 v3)
  | ldle64 buf off => exact ignoresKey_of_stateless s (exec_ldle64 buf off)
  | rotl x b => exact ignoresKey_of_stateless s (exec_rotl x b)

/-- The reply to RESULT depends on LEN modulo 256 only (R15, R75). -/
theorem resultReply_with_len {s : State} {n : LenWord} (h : n.toNat % 256 = s.len.toNat % 256) :
    resultReply { s with len := n } = resultReply s := by
  simp only [resultReply, h, liveTail]

/-- Settles O51. -/
theorem lengthReadModulo256 : Obligations.LengthReadModulo256 := by
  intro s n h
  refine ⟨(resultReply s).packet, exec_result s, ?_⟩
  rw [exec_result, resultReply_with_len h]
  rfl

end Sys2Proof.Proofs
end
section
/-! The register access table as a frame (spec/10_state.md R18, R26), and the first command after reset (R27). -/

namespace Sys2Proof.Proofs

open Sys2Proof.Machine Sys2Proof.Laws

/-- R26, columns K and HVALID: only NEW and NEWB write them. -/
theorem key_hvalid_of_writes {i : Instr} {s t : State} (w : Writes s i t) (hnew : ∀ k0 k1, i ≠ .new k0 k1)
    (hnewb : ∀ key, i ≠ .newb key) : t.k = s.k ∧ t.hvalid = s.hvalid := by
  cases w with
  | nothing r _ => exact ⟨rfl, rfl⟩
  | new k0 k1 => exact absurd rfl (hnew k0 k1)
  | newb _ => exact absurd rfl (hnewb _)
  | reset => exact ⟨rfl, rfl⟩
  | feed fed => exact ⟨fed.k, fed.hvalid⟩
  | feedt fed => exact ⟨fed.k, fed.hvalid⟩

/-- R26, columns V, LEN and NTAIL: only the commands that begin or extend a message write them. -/
theorem message_of_writes {i : Instr} {s t : State} (w : Writes s i t) (hnew : ∀ k0 k1, i ≠ .new k0 k1)
    (hnewb : ∀ key, i ≠ .newb key) (hreset : i ≠ .reset) (hfeed : ∀ c, i ≠ .feed c)
    (hfeedt : ∀ c, i ≠ .feedt c) : t.v = s.v ∧ t.len = s.len ∧ t.ntail = s.ntail := by
  cases w with
  | nothing r _ => exact ⟨rfl, rfl, rfl⟩
  | new k0 k1 => exact absurd rfl (hnew k0 k1)
  | newb _ => exact absurd rfl (hnewb _)
  | reset => exact absurd rfl hreset
  | feed _ => exact absurd rfl (hfeed _)
  | feedt _ => exact absurd rfl (hfeedt _)

/-- R26, column TAIL: only FEED and FEEDT write it. -/
theorem tail_of_writes {i : Instr} {s t : State} (w : Writes s i t) (hfeed : ∀ c, i ≠ .feed c)
    (hfeedt : ∀ c, i ≠ .feedt c) : t.tail = s.tail := by
  cases w with
  | nothing r _ => rfl
  | new k0 k1 => rfl
  | newb _ => rfl
  | reset => rfl
  | feed _ => exact absurd rfl (hfeed _)
  | feedt _ => exact absurd rfl (hfeedt _)

/-- R18, R44: no command clears HVALID, and its part of the port is one response. -/
theorem hvalid_port_of_exec {i : Instr} {s t : State} (h : exec i s = .next t) :
    (s.hvalid = true → t.hvalid = true) ∧ t.pending = s.pending ∧ t.freeIdx = s.freeIdx ∧
      ∃ q, t.responses = s.responses ++ [q] := by
  obtain ⟨e, -, he⟩ | ⟨u, data, c⟩ := exec_cases i s
  · rw [h] at he
    cases he
    exact ⟨id, rfl, rfl, _, rfl⟩
  · have hc := c.exec
    rw [h] at hc
    cases hc
    exact ⟨c.hvalid, c.pending, c.freeIdx, _, by rw [State.respond_responses, c.responses]⟩

/-- Settles O37, column by column of the table. -/
theorem accessTableFrame : Obligations.AccessTableFrame := by
  intro i s t h
  have w : Writes s i t := writes_of_exec h
  exact ⟨key_hvalid_of_writes w, message_of_writes w, tail_of_writes w, hvalid_port_of_exec h⟩

/-- R56 for the commands that need a hasher: their packets decode to them. -/
theorem decode_encode_of_needs_hasher (chunk : Bytes) :
    ∀ i ∈ [Instr.feed chunk, .feedt chunk, .result, .reset], decode (encode i) = .ok i := by
  simp only [List.forall_mem_cons, List.not_mem_nil, false_implies, implies_true, and_true]
  exact ⟨rfl, rfl, rfl, rfl⟩

/-- Settles O12: the packet's command runs with HVALID = 0, so it raises, whatever the other registers hold. -/
theorem resetNeedsConstruction : Obligations.ResetNeedsConstruction := by
  refine ⟨rfl, rfl, rfl, fun chunk i hi => ?_⟩
  rw [stepRunsDecodedCommand _ (encode i) [] i rfl (decode_encode_of_needs_hasher chunk i hi)]
  exact exec_of_no_hasher rfl chunk i hi

end Sys2Proof.Proofs
end

section
/-! The buffers and the order of commands (spec/20_memory.md): what MemRead answers (R31), and that construction
discards everything before it (R40 (c)). -/

namespace Sys2Proof.Proofs

open Sys2Proof.Machine Sys2Proof.Laws

/-- Settles O13: in range the bytes asked for, by their count and one by one; out of range the exception. -/
theorem memReadInBounds : Obligations.MemReadInBounds := by
  refine fun buf off n => ⟨fun hin => ⟨_, memRead_of_le hin, ?length, fun i hi => ?byte⟩, memRead_of_lt⟩
  case length =>
    rw [List.length_take, List.length_drop]
    omega
  case byte => rw [List.getElem?_take_of_lt hi, List.getElem?_drop]

/-- Settles O30: NEW ends in `construct` from both states, which overwrites every field that `SameHasher` compares
and leaves only tail bytes that NTAIL = 0 makes meaningless. -/
theorem constructionForgetsHistory : Obligations.ConstructionForgetsHistory := by
  intro k0 k1 s s'
  have same : SameHasher (s.construct ⟨k0, k1⟩) (s'.construct ⟨k0, k1⟩) := sameHasher_construct s s' _
  obtain ⟨-, empty⟩ := holds_construct s ⟨k0, k1⟩ (.ok [])
  exact ⟨_, _, exec_new k0 k1 s, exec_new k0 k1 s', sameHasher_respond same _, empty⟩

end Sys2Proof.Proofs
end

section
/-! The bytes of a word, read back from the word (spec/30_encoding.md R46, spec/40_primitives.md R62). -/

namespace Sys2Proof.Proofs

open Sys2Proof.Machine Sys2Proof.Laws

/-- A byte shifted up to position `k` is byte `k` of the result, and every other byte of it is 0. -/
theorem wordByte_shiftLeft (b : Byte) (k : Nat) {i : Nat} (hi : i < 8) :
    wordByte (zext64 b <<< (8 * k)) i = if i = k then b else 0 := by
  apply BitVec.eq_of_getLsbD_eq
  intro j hj
  simp only [wordByte, zext64, BitVec.getLsbD_extractLsb', BitVec.getLsbD_shiftLeft, BitVec.getLsbD_setWidth]
  obtain hlt | rfl | hgt := Nat.lt_trichotomy i k
  · simp [show i ≠ k by omega, show 8 * i + j < 8 * k by omega]
  · simp [hj, show 8 * i + j < 64 by omega, show j < 64 by omega]
  · rw [BitVec.getLsbD_of_ge b _ (by omega), if_neg (by omega)]
    simp

theorem wordByte_or (x y : Word) (i : Nat) : wordByte (x ||| y) i = wordByte x i ||| wordByte y i :=
  BitVec.extractLsb'_or

/-- Byte `i` of the word at an offset is the buffer's byte `i` from there (R62). -/
theorem wordByte_wordAt (p : Bytes) (off : Nat) {i : Nat} (hi : i < 8) :
    wordByte (wordAt p off) i = p.getD (off + i) 0 := by
  have byte (k : Nat) (b : Byte) : wordByte (zext64 b <<< (8 * k)) i = if i = k then b else 0 :=
    wordByte_shiftLeft b k hi
  have byte0 (b : Byte) : wordByte (zext64 b) i = if i = 0 then b else 0 := by simpa using byte 0 b
  simp only [wordAt, wordByte_or, byte0, byte 1, byte 2, byte 3, byte 4, byte 5, byte 6, byte 7]
  interval_cases i <;> simp

/-- The word at an offset is laid out as the buffer's eight bytes from there (R46). -/
theorem drop_eq_wordBytes_append {p : Bytes} {off : Nat} (h : off + 8 ≤ p.length) :
    p.drop off = wordBytes (wordAt p off) ++ p.drop (off + 8) := by
  have hbytes : wordBytes (wordAt p off) = (p.drop off).take 8 := by
    rw [take_eight_drop h]
    simp [wordBytes, wordByte_wordAt]
  rw [hbytes, ← List.drop_drop, List.take_append_drop]

/-- The same where the buffer ends after the word. -/
theorem drop_eq_wordBytes {p : Bytes} {off : Nat} (h : p.length = off + 8) :
    p.drop off = wordBytes (wordAt p off) := by
  rw [drop_eq_wordBytes_append (by omega), List.drop_eq_nil_of_le (by omega), List.append_nil]

theorem drop_eq_byte {p : Bytes} {off : Nat} (h : p.length = off + 1) : p.drop off = [p.getD off 0] := by
  rw [List.drop_eq_getElem_cons (by omega), List.drop_eq_nil_of_le (by omega), List.getD_eq_getElem _ _ (by omega)]

/-- A word laid out after `pre` is read back from there. -/
theorem wordAt_field (pre post : Bytes) (w : Word) : wordAt (pre ++ (wordBytes w ++ post)) pre.length = w := by
  have h := le64_field pre post w
  rw [le64_of_le (by simp)] at h
  exact Except.ok.inj h

end Sys2Proof.Proofs
end

section
/-! Packets and their commands (spec/30_encoding.md R56): the decoder is the table, and decoding and encoding are
inverse to each other, one lemma per format that has more than a rest of bytes. -/

namespace Sys2Proof.Proofs

open Sys2Proof.Machine Sys2Proof.Laws

/-- Settles O3. -/
theorem decoderFollowsTable : Obligations.DecoderFollowsTable := decode_toOption

/-- What a decoder accepts that checks `c` and then answers `b`. -/
theorem eq_ok_iff_of_toOption {ε α : Type} {e : Except ε α} {c : Prop} [Decidable c] {a b : α}
    (h : e.toOption = if c then some b else none) : e = .ok a ↔ c ∧ b = a := by
  have hsome : e = .ok a ↔ e.toOption = some a := by cases e <;> simp [Except.toOption]
  rw [hsome, h, Option.ite_none_right_eq_some, Option.some_inj]

/-- The words of a packet that holds an opcode and then words only (R48, R51). -/
theorem wordAt_words {p : Bytes} {op : Byte} {ws : List Word} (hp : p = op :: ws.flatMap wordBytes) {n off : Nat}
    {w : Word} (hw : ws[n]? = some w) (hoff : off = 1 + 8 * n) : wordAt p off = w := by
  rw [hp, hoff]
  exact wordAt_flatMap [op] ws n w hw

/-- R48: the key's two words. -/
theorem decodeNew_encode (k0 k1 : Word) : decodeNew (encode (.new k0 k1)) = .ok (.new k0 k1) := by
  have hp : encode (.new k0 k1) = 0x01 :: [k0, k1].flatMap wordBytes := by simp [encode, opcode, operandBytes]
  refine (eq_ok_iff_of_toOption (decodeNew_toOption _)).mpr ⟨rfl, ?_⟩
  rw [wordAt_words hp (n := 0) rfl rfl, wordAt_words hp (n := 1) rfl rfl]

/-- R51: the four words, in order. -/
theorem decodeRound_encode (v0 v1 v2 v3 : Word) :
    decodeRound (encode (.round v0 v1 v2 v3)) = .ok (.round v0 v1 v2 v3) := by
  have hp : encode (.round v0 v1 v2 v3) = 0x08 :: [v0, v1, v2, v3].flatMap wordBytes := by
    simp [encode, opcode, operandBytes]
  refine (eq_ok_iff_of_toOption (decodeRound_toOption _)).mpr ⟨rfl, ?_⟩
  rw [wordAt_words hp (n := 0) rfl rfl, wordAt_words hp (n := 1) rfl rfl, wordAt_words hp (n := 2) rfl rfl,
    wordAt_words hp (n := 3) rfl rfl]

/-- R50: a key of at most 255 bytes has its length in one byte, which separates it from the message. -/
theorem decodeHash_encode {key : Bytes} (msg : Bytes) (h : key.length ≤ 255) :
    decodeHash (encode (.hash key msg)) = .ok (.hash key msg) := by
  have hklen : (BitVec.ofNat 8 key.length).toNat = key.length := by
    rw [BitVec.toNat_ofNat]
    omega
  simp [decodeHash, encode, operandBytes, hklen]

/-- R52: an offset below 2^64 is read back from its word. -/
theorem decodeLdle64_encode (buf : Bytes) {off : Nat} (h : off < 2 ^ 64) :
    decodeLdle64 (encode (.ldle64 buf off)) = .ok (.ldle64 buf off) := by
  have hlen : 9 ≤ (encode (.ldle64 buf off)).length := by
    rw [(EncodedForm.ldle64 buf off).2]
    exact Nat.le_add_right 9 _
  have hbuf : (encode (.ldle64 buf off)).drop 9 = buf := rfl
  have hoff : wordAt (encode (.ldle64 buf off)) 1 = BitVec.ofNat 64 off := wordAt_field [0x09] buf _
  refine (eq_ok_iff_of_toOption (decodeLdle64_toOption _)).mpr ⟨hlen, ?_⟩
  rw [hbuf, hoff, BitVec.toNat_ofNat, Nat.mod_eq_of_lt h]

/-- R53: the six bits of the count leave the byte's reserved bits 0. -/
theorem decodeRotl_encode (x : Word) (b : RotCount) : decodeRotl (encode (.rotl x b)) = .ok (.rotl x b) := by
  have hx : wordAt (encode (.rotl x b)) 1 = x := wordAt_field [0x0a] _ x
  have hcount : ((encode (.rotl x b)).getD 9 0).toNat = b.toNat := by
    have := b.isLt
    rw [show (encode (.rotl x b)).getD 9 0 = b.setWidth 8 from rfl, BitVec.toNat_setWidth]
    omega
  refine (eq_ok_iff_of_toOption (decodeRotl_toOption _)).mpr ⟨⟨rfl, hcount ▸ b.isLt⟩, ?_⟩
  rw [hx, hcount, BitVec.ofNat_toNat, BitVec.setWidth_eq]

/-- Settles O1: the five formats that check something one by one, the others by their bytes. -/
theorem decodeOfEncode : Obligations.DecodeOfEncode := by
  intro i hwf
  cases i with
  | new k0 k1 => exact decodeNew_encode k0 k1
  | newb key => rfl
  | reset => rfl
  | feed chunk => rfl
  | feedt text => rfl
  | result => rfl
  | hash key msg => exact decodeHash_encode msg (of_decide_eq_true hwf)
  | round v0 v1 v2 v3 => exact decodeRound_encode v0 v1 v2 v3
  | ldle64 buf off => exact decodeLdle64_encode buf (of_decide_eq_true hwf)
  | rotl x b => exact decodeRotl_encode x b

/-- Settles O5: the packets of NEW and FEEDT are those of commands, and the three written out are evaluated. -/
theorem samplePacketsDecode : Obligations.SamplePacketsDecode :=
  ⟨fun k0 k1 => decodeOfEncode (.new k0 k1) rfl, fun text => decodeOfEncode (.feedt text) rfl,
    by decide, by decide, by decide⟩

/-- `p` is the one packet of the command `i` (R56). -/
def IsPacketOf (p : Bytes) (i : Instr) : Prop := i.wellFormed = true ∧ encode i = p

/-- A packet is its opcode and the operand bytes after it (R45). -/
theorem isPacketOf_of_drop {op : Byte} {body : Bytes} {i : Instr} (hwf : i.wellFormed = true) (hop : opcode i = op)
    (hoperands : (op :: body).drop 1 = operandBytes i) : IsPacketOf (op :: body) i := by
  refine ⟨hwf, ?_⟩
  rw [encode, hop, ← hoperands]
  rfl

/-- R48: the two words are all of a packet of 17 bytes. -/
theorem isPacketOf_of_decodeNew {body : Bytes} {i : Instr} (h : decodeNew (0x01 :: body) = .ok i) :
    IsPacketOf (0x01 :: body) i := by
  obtain ⟨hlen, rfl⟩ := (eq_ok_iff_of_toOption (decodeNew_toOption _)).mp h
  refine isPacketOf_of_drop rfl rfl ?_
  rw [drop_eq_wordBytes_append (by omega), drop_eq_wordBytes hlen, operandBytes]

/-- R47: a packet of one byte is its opcode. -/
theorem isPacketOf_of_decodeZ {op : Byte} {body : Bytes} {i j : Instr} (hop : IsPacketOf [op] i)
    (h : decodeZ op i (op :: body) = .ok j) : IsPacketOf (op :: body) j := by
  obtain ⟨hlen, rfl⟩ := (eq_ok_iff_of_toOption (decodeZ_toOption op i _)).mp h
  obtain rfl : body = [] := List.length_eq_zero_iff.mp (Nat.succ.inj hlen)
  exact hop

/-- R50: the key has as many bytes as its length byte says, so at most 255, and the message is the rest. -/
theorem isPacketOf_of_decodeHash {body : Bytes} {i : Instr} (h : decodeHash (0x07 :: body) = .ok i) :
    IsPacketOf (0x07 :: body) i := by
  match body with
  | [] => cases h
  | klen :: rest =>
    rw [decodeHash] at h
    split at h
    next hle =>
      cases h
      have hkey : (rest.take klen.toNat).length = klen.toNat := List.length_take_of_le hle
      have hbyte := klen.isLt
      refine isPacketOf_of_drop (decide_eq_true (by omega)) rfl ?_
      rw [operandBytes, hkey, BitVec.ofNat_toNat, BitVec.setWidth_eq, List.take_append_drop]
      rfl
    next => cases h

/-- R51: the four words are all of a packet of 33 bytes. -/
theorem isPacketOf_of_decodeRound {body : Bytes} {i : Instr} (h : decodeRound (0x08 :: body) = .ok i) :
    IsPacketOf (0x08 :: body) i := by
  obtain ⟨hlen, rfl⟩ := (eq_ok_iff_of_toOption (decodeRound_toOption _)).mp h
  refine isPacketOf_of_drop rfl rfl ?_
  rw [drop_eq_wordBytes_append (by omega), drop_eq_wordBytes_append (by omega), drop_eq_wordBytes_append (by omega),
    drop_eq_wordBytes hlen, operandBytes]
  simp only [List.append_assoc]

/-- R52: a word is an offset below 2^64, and the buffer is the rest. -/
theorem isPacketOf_of_decodeLdle64 {body : Bytes} {i : Instr} (h : decodeLdle64 (0x09 :: body) = .ok i) :
    IsPacketOf (0x09 :: body) i := by
  obtain ⟨hlen, rfl⟩ := (eq_ok_iff_of_toOption (decodeLdle64_toOption _)).mp h
  refine isPacketOf_of_drop (decide_eq_true (BitVec.isLt _)) rfl ?_
  rw [drop_eq_wordBytes_append hlen, operandBytes, BitVec.ofNat_toNat, BitVec.setWidth_eq]

theorem setWidth_ofNat_six {b : Byte} (h : b.toNat < 64) : (BitVec.ofNat 6 b.toNat).setWidth 8 = b := by
  apply BitVec.eq_of_toNat_eq
  rw [BitVec.toNat_setWidth, BitVec.toNat_ofNat]
  omega

/-- R53: a count byte below 64 is its low six bits, and the last of a packet of 10 bytes. -/
theorem isPacketOf_of_decodeRotl {body : Bytes} {i : Instr} (h : decodeRotl (0x0a :: body) = .ok i) :
    IsPacketOf (0x0a :: body) i := by
  obtain ⟨⟨hlen, hcount⟩, rfl⟩ := (eq_ok_iff_of_toOption (decodeRotl_toOption _)).mp h
  refine isPacketOf_of_drop rfl rfl ?_
  rw [drop_eq_wordBytes_append (by omega), drop_eq_byte hlen, operandBytes, setWidth_ofNat_six hcount]

/-- Settles O2: by the opcode; the formats of open length keep every byte, and each other one is the lemma above. -/
theorem encodeOfDecode : Obligations.EncodeOfDecode := by
  intro p i h
  match p with
  | [] => cases h
  | op :: body =>
    rw [decode] at h
    split at h
    next hop => obtain rfl : op = 0x01 := BitVec.eq_of_toNat_eq hop; exact isPacketOf_of_decodeNew h
    next hop => obtain rfl : op = 0x02 := BitVec.eq_of_toNat_eq hop; cases h; exact ⟨rfl, rfl⟩
    next hop => obtain rfl : op = 0x03 := BitVec.eq_of_toNat_eq hop; exact isPacketOf_of_decodeZ ⟨rfl, rfl⟩ h
    next hop => obtain rfl : op = 0x04 := BitVec.eq_of_toNat_eq hop; cases h; exact ⟨rfl, rfl⟩
    next hop => obtain rfl : op = 0x05 := BitVec.eq_of_toNat_eq hop; cases h; exact ⟨rfl, rfl⟩
    next hop => obtain rfl : op = 0x06 := BitVec.eq_of_toNat_eq hop; exact isPacketOf_of_decodeZ ⟨rfl, rfl⟩ h
    next hop => obtain rfl : op = 0x07 := BitVec.eq_of_toNat_eq hop; exact isPacketOf_of_decodeHash h
    next hop => obtain rfl : op = 0x08 := BitVec.eq_of_toNat_eq hop; exact isPacketOf_of_decodeRound h
    next hop => obtain rfl : op = 0x09 := BitVec.eq_of_toNat_eq hop; exact isPacketOf_of_decodeLdle64 h
    next hop => obtain rfl : op = 0x0a := BitVec.eq_of_toNat_eq hop; exact isPacketOf_of_decodeRotl h
    next => cases h

/-- Settles O6: the operand bytes are the same, and NEWB's key is split into the words it was laid out from. -/
theorem wordKeyIsByteKey : Obligations.WordKeyIsByteKey := by
  intro k0 k1 s
  have h0 : wordAt (wordBytes k0 ++ wordBytes k1) 0 = k0 := wordAt_field [] (wordBytes k1) k0
  have h1 : wordAt (wordBytes k0 ++ wordBytes k1) 8 = k1 := wordAt_field (wordBytes k0) [] k1
  refine ⟨rfl, ?_⟩
  rw [exec_newb_of_length s rfl, exec_new, h0, h1]

end Sys2Proof.Proofs
end

section
/-! Responses (spec/30_encoding.md R44 (b), R57): every command and every malformed packet is answered once. -/

namespace Sys2Proof.Proofs

open Sys2Proof.Machine Sys2Proof.Laws

/-- A response packet of R57: a status of R94, and 0, 1 or 4 words of data, none unless the status is OK. -/
def LegalResponse (status : Byte) (data : Bytes) : Prop :=
  status.toNat ≤ 4 ∧ (data.length = 0 ∨ data.length = 8 ∨ data.length = 32) ∧ (status ≠ 0x00 → data = [])

/-- `t` is `s` with exactly one response more, a legal one, and the same inputs presented. -/
def RespondsOnce (s t : State) : Prop :=
  ∃ status data, t.pending = s.pending ∧ t.responses = s.responses ++ [status :: data] ∧ LegalResponse status data

/-- R96: an exception's status alone. -/
theorem legalResponse_error (e : Exception) : LegalResponse e.status [] := by
  refine ⟨?_, .inl rfl, fun _ => rfl⟩
  cases e <;> simp [Exception.status]

/-- R57: OK and the data words, 8 bytes each. -/
theorem legalResponse_ok {data : List Word} (h : data.length = 0 ∨ data.length = 1 ∨ data.length = 4) :
    LegalResponse 0x00 (data.flatMap wordBytes) := by
  have hbytes : (data.flatMap wordBytes).length = 8 * data.length := by
    simp [List.length_flatMap, Nat.mul_comm]
  exact ⟨by decide, by omega, fun hne => absurd rfl hne⟩

theorem respondsOnce_of_error (e : Exception) (s : State) : RespondsOnce s (s.respond (.error e)) :=
  ⟨e.status, [], rfl, rfl, legalResponse_error e⟩

theorem exec_respondsOnce (i : Instr) (s : State) : ∃ t, exec i s = .next t ∧ RespondsOnce s t := by
  obtain ⟨e, -, h⟩ | ⟨u, data, c⟩ := exec_cases i s
  · exact ⟨_, h, respondsOnce_of_error e s⟩
  · refine ⟨_, c.exec, 0x00, data.flatMap wordBytes, c.pending, ?_, legalResponse_ok c.length⟩
    rw [State.respond_responses, c.responses]
    rfl

theorem runPacket_respondsOnce (p : Bytes) (s : State) : ∃ t, runPacket p s = .next t ∧ RespondsOnce s t := by
  cases h : decode p with
  | ok i =>
    rw [runPacket_of_decode h]
    exact exec_respondsOnce i s
  | error e =>
    exact ⟨s.respond (.error .illegalCommand), by rw [runPacket, h]; rfl, respondsOnce_of_error _ s⟩

/-- Settles O9: the packet is taken off the port and run there, and whatever it is, it is answered once. -/
theorem oneResponsePerPacket : Obligations.OneResponsePerPacket := by
  intro s p rest hpending
  obtain ⟨t, hrun, status, data, hrest, hresponses, hlegal⟩ := runPacket_respondsOnce p (s.setPending rest)
  exact ⟨t, status, data, (step_of_packet hpending).trans hrun, hrest, hresponses, hlegal⟩

end Sys2Proof.Proofs
end

section
/-! The leaf functions (spec/40_primitives.md section 1): rotl's bit rule determines it (R61), le64's bytes (R62), and
sipround's steps and the undoing of them (R63, R67). -/

namespace Sys2Proof.Proofs

open Sys2Proof.Machine Sys2Proof.Laws

/-- R61's bit rule. -/
theorem getLsbD_rotl (x : Word) (b : RotCount) {i : Nat} (hi : i < 64) :
    (rotl x b).getLsbD ((i + b.toNat) % 64) = x.getLsbD i := by
  have hb : b.toNat < 64 := b.isLt
  rw [rotl_eq_rotateLeft, BitVec.getLsbD_rotateLeft, Nat.mod_eq_of_lt hb]
  by_cases hwrap : i + b.toNat < 64
  · rw [Nat.mod_eq_of_lt hwrap, Nat.add_sub_cancel]
    simp [hwrap]
  · have hlow : (i + b.toNat) % 64 = i + b.toNat - 64 := by omega
    have hback : 64 - b.toNat + (i + b.toNat - 64) = i := by omega
    simp [hlow, hback, show i + b.toNat - 64 < b.toNat by omega]

/-- The bit rule determines the rotation: every bit of the result is some bit's image. -/
theorem eq_rotl_of_bits {x y : Word} {b : RotCount}
    (h : ∀ i < 64, y.getLsbD ((i + b.toNat) % 64) = x.getLsbD i) : y = rotl x b := by
  apply BitVec.eq_of_getLsbD_eq
  intro j hj
  have hb : b.toNat < 64 := b.isLt
  have himage : ((j + (64 - b.toNat)) % 64 + b.toNat) % 64 = j := by omega
  have hi : (j + (64 - b.toNat)) % 64 < 64 := Nat.mod_lt _ (by decide)
  rw [← himage, h _ hi, getLsbD_rotl x b hi]

@[simp] theorem rotl_zero (x : Word) : rotl x 0 = x :=
  (eq_rotl_of_bits (b := 0) fun _ hi => congrArg x.getLsbD (Nat.mod_eq_of_lt hi)).symm

/-- R61: rotations add, their counts modulo 64. -/
theorem rotl_rotl (x : Word) (a b : RotCount) : rotl (rotl x a) b = rotl x (a + b) := by
  refine eq_rotl_of_bits fun i hi => ?_
  have hcount : (i + (a + b).toNat) % 64 = ((i + a.toNat) % 64 + b.toNat) % 64 := by
    rw [BitVec.toNat_add]
    omega
  have hmid : (i + a.toNat) % 64 < 64 := Nat.mod_lt _ (by decide)
  rw [hcount, getLsbD_rotl _ b hmid, getLsbD_rotl x a hi]

/-- R61 as arithmetic: the bits that re-enter lie below those shifted up, so the two parts add. -/
theorem toNat_rotl (x : Word) (b : RotCount) :
    (rotl x b).toNat = (x.toNat * 2 ^ b.toNat) % 2 ^ 64 + x.toNat / 2 ^ (64 - b.toNat) := by
  have hb : b.toNat < 64 := b.isLt
  have hpow : 2 ^ 64 = 2 ^ (64 - b.toNat) * 2 ^ b.toNat := by
    rw [← Nat.pow_add, Nat.sub_add_cancel hb.le]
  have hup : x.toNat <<< b.toNat % 2 ^ 64 = (x.toNat % 2 ^ (64 - b.toNat)) <<< b.toNat := by
    rw [Nat.shiftLeft_eq, Nat.shiftLeft_eq, hpow, Nat.mul_mod_mul_right]
  have hlow : x.toNat >>> (64 - b.toNat) < 2 ^ b.toNat := by
    rw [Nat.shiftRight_eq_div_pow]
    exact Nat.div_lt_of_lt_mul (hpow ▸ x.isLt)
  rw [rotl_eq_rotateLeft, BitVec.toNat_rotateLeft, Nat.mod_eq_of_lt hb, hup,
    ← Nat.shiftLeft_add_eq_or_of_lt hlow, ← hup, Nat.shiftLeft_eq, Nat.shiftRight_eq_div_pow]

/-- Settles O15. -/
theorem rotlMovesBits : Obligations.RotlMovesBits :=
  ⟨fun x b _ hi => getLsbD_rotl x b hi, fun x b _ => toNat_rotl x b, rotl_zero, rotl_rotl⟩

/-- Settles O14: le64 is R62's formula in range, and the formula's bytes are the buffer's. -/
theorem loadedWordBytes : Obligations.LoadedWordBytes := by
  refine fun s off => ⟨fun hin => ⟨wordAt s off, le64_of_le hin, fun i hi => ?_⟩, le64_of_lt⟩
  have hbyte : (wordAt s off).extractLsb' (8 * i) 8 = s.getD (off + i) 0 := wordByte_wordAt s off hi
  have hlt : off + i < s.length := by omega
  rw [hbyte, List.getD_eq_getElem _ _ hlt, List.getElem?_eq_getElem hlt]

/-- Settles O16: the model's rotation is the vector's, and the rest of the steps are R63's. -/
theorem siproundSteps : Obligations.SiproundSteps := by
  intro v0 v1 v2 v3
  simp only [sipround, rotl_eq_rotateLeft]
  rfl

/-- Rotate right: the rotation by the opposite count. -/
def rotr (x : Word) (b : RotCount) : Word := rotl x (-b)

@[simp] theorem rotr_rotl (x : Word) (b : RotCount) : rotr (rotl x b) b = x := by
  rw [rotr, rotl_rotl, add_neg_cancel, rotl_zero]

@[simp] theorem rotl_rotr (x : Word) (b : RotCount) : rotl (rotr x b) b = x := by
  rw [rotr, rotl_rotl, neg_add_cancel, rotl_zero]

/-- The fourteen steps of R63 undone in reverse order, each by the words it does not write (R67 (c)). -/
def undoRound (s : Mix) : Mix :=
  let v0 := s.v0
  let v1 := s.v1
  let v2 := s.v2
  let v3 := s.v3
  let v2 := rotr v2 32
  let v1 := v1 ^^^ v2
  let v1 := rotr v1 17
  let v2 := v2 - v1
  let v3 := v3 ^^^ v0
  let v3 := rotr v3 21
  let v0 := v0 - v3
  let v3 := v3 ^^^ v2
  let v3 := rotr v3 16
  let v2 := v2 - v3
  let v0 := rotr v0 32
  let v1 := v1 ^^^ v0
  let v1 := rotr v1 13
  let v0 := v0 - v1
  ⟨v0, v1, v2, v3⟩

theorem undoRound_sipround (s : Mix) : undoRound (sipround s) = s := by
  simp only [undoRound, sipround, rotr_rotl, xor_cancel_right, BitVec.add_sub_cancel]

theorem sipround_undoRound (s : Mix) : sipround (undoRound s) = s := by
  simp only [undoRound, sipround, rotl_rotr, xor_cancel_right, BitVec.sub_add_cancel]

/-- Settles O17: the zero state by evaluation, the bijection by its inverse. -/
theorem siproundBijective : Obligations.SiproundBijective :=
  ⟨by decide, Function.bijective_iff_has_inverse.mpr ⟨undoRound, undoRound_sipround, sipround_undoRound⟩⟩

end Sys2Proof.Proofs
end

section
/-! The commands of the leaf units (spec/40_primitives.md section 2): each ends in one `respond`, which changes
nothing but the responses. -/

namespace Sys2Proof.Proofs

open Sys2Proof.Machine Sys2Proof.Laws

theorem exec_rotl_eq (x : Word) (b : RotCount) (s : State) :
    exec (.rotl x b) s = .next (s.respond (.ok [rotl x b])) := rfl

theorem exec_round_eq (v0 v1 v2 v3 : Word) {w0 w1 w2 w3 : Word} (h : sipround ⟨v0, v1, v2, v3⟩ = ⟨w0, w1, w2, w3⟩)
    (s : State) : exec (.round v0 v1 v2 v3) s = .next (s.respond (.ok [w0, w1, w2, w3])) := by
  rw [exec, execRound, h]
  rfl

/-- Settles O20: the reply carries rotl's word, whose bits are R61's. -/
theorem rotlAnswersRotation : Obligations.RotlAnswersRotation :=
  fun x b s => ⟨_, rotl x b, carries_packet [rotl x b], fun _ hi => getLsbD_rotl x b hi, exec_rotl_eq x b s⟩

/-- Settles O21: the two outcomes of LDLE64, the second one's reply being RangeViolation's status alone. -/
theorem ldle64AnswersWord : Obligations.Ldle64AnswersWord :=
  fun buf off s => ⟨fun hin => ⟨_, carries_packet [wordAt buf off], exec_ldle64_of_le s hin⟩, exec_ldle64_of_lt s⟩

/-- Settles O22: the reply carries the four words of sipround of the operands. -/
theorem roundAnswersSipround : Obligations.RoundAnswersSipround := by
  intro v0 v1 v2 v3 s
  cases h : sipround ⟨v0, v1, v2, v3⟩ with
  | mk w0 w1 w2 w3 => exact ⟨_, w0, w1, w2, w3, carries_packet [w0, w1, w2, w3], rfl, exec_round_eq v0 v1 v2 v3 h s⟩

end Sys2Proof.Proofs
end

section
/-! The pure functions of the hasher (spec/41_hasher.md section 1): mixing in terms of sipround (R68, R69, R76), and
the bytes of the finalization word (R75). -/

namespace Sys2Proof.Proofs

open Sys2Proof.Machine Sys2Proof.Laws

/-- R69: two rounds between the two XORs of one word. -/
theorem absorb_eq (v : Mix) (m : Word) : absorb v m =
    let w := sipround (sipround ⟨v.v0, v.v1, v.v2, v.v3 ^^^ m⟩)
    ⟨w.v0 ^^^ m, w.v1, w.v2, w.v3⟩ := rfl

/-- R76: four rounds after the domain separation. -/
theorem finalize_eq (v : Mix) (b : Word) : finalize v b =
    let w := absorb v b
    let w := sipround (sipround (sipround (sipround ⟨w.v0, w.v1, w.v2 ^^^ 0xff, w.v3⟩)))
    w.v0 ^^^ w.v1 ^^^ w.v2 ^^^ w.v3 := rfl

/-- Settles O18: c = 2 and d = 4 rounds written out, and the constants by evaluation. -/
theorem mixingFunctions : Obligations.MixingFunctions :=
  ⟨fun _ _ => rfl, by decide, absorb_eq, finalize_eq⟩

/-- Byte `k` of the word that the bytes of `bs` were OR-ed into from byte position `j` on. -/
theorem wordByte_orBytes (w : Word) (j : Nat) (bs : Bytes) {k : Nat} (hk : k < 8) :
    wordByte (orBytes w j bs) k = wordByte w k ||| if k < j then 0 else bs.getD (k - j) 0 := by
  induction bs generalizing w j with
  | nil => simp [orBytes]
  | cons b bs ih =>
    rw [orBytes, ih, wordByte_or, wordByte_shiftLeft b j hk]
    obtain hlt | rfl | hgt := Nat.lt_trichotomy k j
    · simp [hlt, show k ≠ j by omega, show k < j + 1 by omega]
    · simp
    · have hindex : k - j = k - (j + 1) + 1 := by omega
      rw [if_neg (by omega), if_neg (by omega), if_neg (by omega), hindex, List.getD_cons_succ]
      exact congrArg (· ||| _) BitVec.or_zero

/-- R75: the length byte at position 7, below it the first `nt` bytes of `t` at their own positions. -/
theorem wordByte_finalword (l8 : Nat) (t : Bytes) {nt k : Nat} (hnt : nt ≤ 7) (hk : k < 8) :
    wordByte (finalword l8 t nt) k = if k = 7 then BitVec.ofNat 8 l8 else (t.take nt).getD k 0 := by
  have htop : wordByte (zext64 (BitVec.ofNat 8 l8) <<< 56) k = if k = 7 then BitVec.ofNat 8 l8 else 0 :=
    wordByte_shiftLeft _ 7 hk
  rw [finalword, wordByte_orBytes _ _ _ hk, htop]
  by_cases h7 : k = 7
  · have hnone : (t.take nt).getD k 0 = 0 := List.getD_eq_default _ _ (by rw [List.length_take]; omega)
    rw [if_neg (Nat.not_lt_zero k), Nat.sub_zero, hnone, if_pos h7]
    exact BitVec.or_zero
  · simp [h7]

/-- Settles O19, by the position of the byte. -/
theorem finalWordBytes : Obligations.FinalWordBytes := by
  intro l8 t nt _ hnt hlen
  have byte (k : Nat) (hk : k < 8) : (finalword l8 t nt).extractLsb' (8 * k) 8 = _ := wordByte_finalword l8 t hnt hk
  refine ⟨byte 7 (by decide), fun i hi => ?tail, fun i hi h7 => ?gap⟩
  case tail =>
    rw [byte i (by omega), if_neg (by omega), List.getD_eq_getElem?_getD, List.getElem?_take_of_lt hi,
      List.getElem?_eq_getElem (by omega), Option.getD_some]
  case gap =>
    rw [byte i (by omega), if_neg (by omega)]
    exact List.getD_eq_default _ _ (by rw [List.length_take]; omega)

end Sys2Proof.Proofs
end

section
/-! The commands of the hasher one by one (spec/41_hasher.md sections 2 to 4), each from its outcomes in
Laws/Exec.lean. -/

namespace Sys2Proof.Proofs

open Sys2Proof.Machine Sys2Proof.Laws

/-- Settles O23. -/
theorem newConstructsHasher : Obligations.NewConstructsHasher := exec_new

/-- Settles O24: the two outcomes of NEWB, by the key's length. -/
theorem newbConstructsHasher : Obligations.NewbConstructsHasher :=
  fun _ s => ⟨exec_newb_of_length s, exec_newb_of_length_ne s⟩

/-- Settles O25: the two outcomes of RESET, by HVALID. -/
theorem resetRestartsMessage : Obligations.ResetRestartsMessage :=
  fun _ => ⟨exec_reset_of_valid, exec_reset_of_invalid⟩

/-- Constructing under the key held restarts the message: K and HVALID are written with what they hold. -/
theorem construct_held {s : State} (h : s.hvalid = true) : s.construct s.k = s.startMessage := by
  rw [State.construct, ← h]

/-- Settles O29. -/
theorem newOfHeldKeyIsReset : Obligations.NewOfHeldKeyIsReset := by
  intro s h
  rw [exec_new, exec_reset_of_valid h, construct_held h]

/-- R73: what FEED leaves of a constructed hasher, its response included. -/
theorem exec_feed_afterFeed (chunk : Bytes) {s : State} (h : s.hvalid = true) :
    ∃ t, exec (.feed chunk) s = .next t ∧ AfterFeed s t chunk := by
  obtain ⟨t, -, f, e⟩ := exec_feed_of_valid chunk h
  have hntail : t.ntail.toNat = (s.ntail.toNat + chunk.length) % 8 := by
    rw [f.ntail, List.length_append, liveTail_length]
  have hresponses : (t.respond (.ok [])).responses = s.responses ++ [[0x00]] := by
    rw [State.respond_responses, f.responses, packet_ok_nil]
  exact ⟨_, e, f.v, f.len, hntail, f.tail, f.k, f.hvalid, hresponses, f.pending, f.freeIdx⟩

/-- A commit of what the registers hold. -/
theorem commitFeed_held (s : State) : s.commitFeed s.v s.len s.tail s.ntail.toNat = s := by
  simp [State.commitFeed]

/-- R73, corner case: an empty chunk changes no register, not even a dead tail byte. -/
theorem feedBody_nil (s : State) : feedBody [] s = .ok s := by
  have held := commitFeed_held s
  by_cases hempty : s.ntail.toNat = 0
  · rw [feedBody, if_pos hempty, feedFrom_eq (Nat.zero_le _)]
    simpa [absorbAll_of_lt, remainder, writeTail, hempty] using held
  · have hshort : ([] : Bytes).length < 8 - s.ntail.toNat := Nat.sub_pos_of_lt s.ntail.isLt
    rw [feedBody, if_neg hempty, if_pos hshort]
    simpa [writeTail] using held

theorem exec_feed_nil {s : State} (h : s.hvalid = true) : exec (.feed []) s = .next (s.respond (.ok [])) := by
  obtain ⟨t, hbody, -, e⟩ := exec_feed_of_valid [] h
  rw [feedBody_nil] at hbody
  cases hbody
  exact e

/-- Settles O26. -/
theorem feedAbsorbsChunk : Obligations.FeedAbsorbsChunk :=
  fun chunk _ => ⟨exec_feed_afterFeed chunk, exec_feed_nil, exec_feed_of_invalid chunk⟩

/-- Settles O27. -/
theorem feedtIsFeed : Obligations.FeedtIsFeed := by
  intro text s
  rw [exec_feedt]
  exact ⟨rfl, exec_feed_afterFeed text, exec_feed_of_invalid text⟩

/-- Settles O28. -/
theorem resultAnswersDigest : Obligations.ResultAnswersDigest :=
  fun _ => ⟨fun h => ⟨_, carries_packet _, exec_result_of_valid h⟩, exec_result_of_invalid⟩

/-- R83: in the closed form of a message the reply to RESULT is the reference function's. -/
theorem resultReply_of_represents {s : State} {m : Bytes} (r : Represents s m) :
    resultReply s = .ok [siphash24 s.k m] := by
  have hlen : s.len.toNat % 256 = m.length % 256 := by
    rw [r.len, BitVec.toNat_ofNat]
    omega
  rw [resultReply, if_pos r.hvalid, hlen, r.v, r.tail, r.ntail, siphash24]

/-- RESULT of a hasher that holds a key and a message. -/
theorem exec_result_of_holds {s : State} {k : Key} {m : Bytes} (h : Holds s k m) :
    exec .result s = .next (s.respond (.ok [siphash24 k m])) := by
  obtain ⟨rfl, r⟩ := h
  rw [exec_result, resultReply_of_represents r]

/-- Settles O41. -/
theorem resultIsReference : Obligations.ResultIsReference :=
  fun _ _ r => ⟨_, carries_packet _, exec_result_of_holds ⟨rfl, r⟩⟩

/-- FEED extends the message of the hasher (R20), and answers OK. -/
theorem exec_feed_of_holds {s : State} {k : Key} {m : Bytes} (h : Holds s k m) (c : Bytes) :
    ∃ t, exec (.feed c) s = .next t ∧ Holds t k (m ++ c) ∧ t.responses = s.responses ++ [[0x00]] := by
  obtain ⟨rfl, r⟩ := h
  obtain ⟨t, e, after⟩ := exec_feed_afterFeed c r.hvalid
  exact ⟨t, e, holds_of_writes r (writes_of_exec e), after.responses⟩

end Sys2Proof.Proofs
end

section
/-! Runs of commands on the hasher (spec/41_hasher.md section 5): the required properties R78 to R81, and the known
answer R86. -/

namespace Sys2Proof.Proofs

open Sys2Proof.Machine Sys2Proof.Laws

/-- A run from a command that completes goes on from the state it leaves (R40). -/
theorem execAll_cons {i : Instr} {s t : State} (h : exec i s = .next t) (is : List Instr) :
    execAll (i :: is) s = execAll is t := by
  rw [execAll, h]

/-- Settles O45: RESULT changes nothing that RESULT reads. -/
theorem readIsIdempotent : Obligations.ReadIsIdempotent := by
  intro s _
  have again : resultReply (s.respond (resultReply s)) = resultReply s := rfl
  refine ⟨(resultReply s).packet, ?_⟩
  rw [execAll_cons (exec_result s), execAll_cons (exec_result _), again, execAll]
  simp [State.respond]

/-- R79 from every state: two FEEDs leave V, LEN and the live tail that one FEED of both chunks leaves, since only
the remainder of what was fed first meets the second chunk. -/
theorem sameHasher_of_afterFeed {s t u w : State} {a b : Bytes} (first : AfterFeed s t a) (second : AfterFeed t u b)
    (whole : AfterFeed s w (a ++ b)) : SameHasher u w where
  k := by rw [whole.k, second.k, first.k]
  v := by rw [whole.v, second.v, first.v, first.tail, ← absorbAll_more, List.append_assoc]
  len := by rw [whole.len, second.len, first.len, List.length_append, BitVec.ofNat_add, BitVec.add_assoc]
  ntail := BitVec.eq_of_toNat_eq <| by
    rw [whole.ntail, second.ntail, first.ntail, List.length_append, Nat.mod_add_mod, Nat.add_assoc]
  tail := by rw [whole.tail, second.tail, first.tail, ← remainder_more, List.append_assoc]
  hvalid := by rw [whole.hvalid, second.hvalid, first.hvalid]

/-- Settles O47. -/
theorem feedOfConcatenation : Obligations.FeedOfConcatenation := by
  intro a b s h
  obtain ⟨t, ea, first⟩ := exec_feed_afterFeed a h
  obtain ⟨u, eb, second⟩ := exec_feed_afterFeed b (first.hvalid.trans h)
  obtain ⟨w, eab, whole⟩ := exec_feed_afterFeed (a ++ b) h
  refine ⟨u, w, ?_, eab, sameHasher_of_afterFeed first second whole⟩
  rw [execAll_cons ea, execAll_cons eb, execAll]

/-- The response packet that carries the digest of `m` under `k`. -/
def digestPacket (k : Key) (m : Bytes) : Bytes := (Reply.ok [siphash24 k m]).packet

/-- From a hasher that holds `m`, a FEED of each chunk and RESULT answer the digest of all the bytes (R79). -/
theorem execAll_feeds_result {s : State} {k : Key} {m : Bytes} (h : Holds s k m) (chunks : List Bytes) :
    ∃ t, execAll (chunks.map Instr.feed ++ [.result]) s = .next t ∧
      t.responses = s.responses ++
        (List.replicate chunks.length [0x00] ++ [digestPacket k (m ++ chunks.flatten)]) := by
  induction chunks generalizing s m with
  | nil =>
    refine ⟨_, execAll_cons (exec_result_of_holds h) [], ?_⟩
    simp [digestPacket]
  | cons c chunks ih =>
    obtain ⟨u, e, held, hu⟩ := exec_feed_of_holds h c
    obtain ⟨t, run, ht⟩ := ih held
    refine ⟨t, (execAll_cons e _).trans run, ?_⟩
    rw [ht, hu]
    simp [List.replicate_succ]

/-- The same of one FEED. -/
theorem execAll_feed_result {s : State} {k : Key} (h : Holds s k []) (c : Bytes) :
    ∃ t, execAll [.feed c, .result] s = .next t ∧
      t.responses = s.responses ++ [[0x00], digestPacket k c] := by
  simpa using execAll_feeds_result h [c]

/-- Settles O46: each path ends in the digest packet of the concatenation. -/
theorem chunkingInvariance : Obligations.ChunkingInvariance := by
  intro key chunks s hlen
  have constructed := exec_newb_of_length s hlen
  have held := holds_construct s ⟨wordAt key 0, wordAt key 8⟩ (.ok [])
  refine ⟨digestPacket _ chunks.flatten, carries_packet _, ?parts, ?whole, exec_hash_of_length _ s hlen⟩
  case parts =>
    obtain ⟨t, run, ht⟩ := execAll_feeds_result held chunks
    refine ⟨t, (execAll_cons constructed _).trans run, ?_⟩
    rw [ht]
    simp [List.replicate_succ]
  case whole =>
    obtain ⟨t, run, ht⟩ := execAll_feed_result held chunks.flatten
    refine ⟨t, (execAll_cons constructed _).trans run, ?_⟩
    rw [ht]
    simp

/-- Settles O48: RESET and NEW of the key held both leave a hasher that holds that key and the empty message. -/
theorem resetIsolation : Obligations.ResetIsolation := by
  intro s m1 m2 h
  refine ⟨digestPacket s.k m2, ?_, fun u => ?_⟩
  · obtain ⟨t, e, after⟩ := exec_feed_afterFeed m1 h
    have hvalid : t.hvalid = true := after.hvalid.trans h
    have held := holds_startMessage hvalid (.ok [])
    rw [after.k] at held
    obtain ⟨w, run, hw⟩ := execAll_feed_result held m2
    refine ⟨w, ?_, ?_⟩
    · rw [execAll_cons e, execAll_cons (exec_reset_of_valid hvalid), run]
    · rw [hw]
      simp [after.responses]
  · obtain ⟨w, run, hw⟩ := execAll_feed_result (holds_construct u s.k (.ok [])) m2
    refine ⟨w, (execAll_cons (exec_new _ _ u) _).trans run, ?_⟩
    rw [hw]
    simp

/-- R81: with nothing to absorb the finalization word is 0. -/
theorem siphash24_nil (k : Key) : siphash24 k [] = finalize (Machine.init k) 0 := by
  have hword : finalword 0 [] 0 = 0 := by decide
  rw [siphash24, absorbAll_of_lt _ (by decide)]
  exact congrArg _ hword

/-- Settles O49. -/
theorem emptyMessageDigest : Obligations.EmptyMessageDigest := by
  intro s h
  obtain ⟨t, run, ht⟩ := execAll_feeds_result (holds_startMessage h (.ok [])) []
  refine ⟨digestPacket s.k [], t, ?_, (execAll_cons (exec_reset_of_valid h) _).trans run, ?_⟩
  · rw [← siphash24_nil]
    exact carries_packet _
  · rw [ht]
    simp

/-- R86: the reference function's packet for the source's key and message. -/
theorem digestPacket_knownAnswer :
    digestPacket ⟨wordAt ((List.range 16).map (BitVec.ofNat 8)) 0, wordAt ((List.range 16).map (BitVec.ofNat 8)) 8⟩
        ((List.range 15).map (BitVec.ofNat 8)) =
      [0x00, 0xe5, 0x45, 0xbe, 0x49, 0x61, 0xca, 0x29, 0xa1] := by decide

/-- Settles O50: both paths answer the digest packet, which is evaluated once. -/
theorem knownAnswer : Obligations.KnownAnswer := by
  intro s
  have hlen : ((List.range 16).map (BitVec.ofNat 8)).length = 16 := by decide
  rw [← digestPacket_knownAnswer]
  obtain ⟨t, run, ht⟩ := execAll_feed_result (holds_construct s _ (.ok [])) ((List.range 15).map (BitVec.ofNat 8))
  refine ⟨⟨t, (execAll_cons (exec_newb_of_length s hlen) _).trans run, ?_⟩, exec_hash_of_length _ s hlen⟩
  rw [ht]
  simp

end Sys2Proof.Proofs
end

section
/-! The one-shot authenticator (spec/42_oneshot.md): HASH's two outcomes (R88), and the commands that depend on no
register (R91; R26, R64 to R66). -/

namespace Sys2Proof.Proofs

open Sys2Proof.Machine Sys2Proof.Laws

/-- Settles O31: the two outcomes of HASH, by the key's length. -/
theorem hashAnswersDigest : Obligations.HashAnswersDigest :=
  fun _ msg s => ⟨fun hlen => ⟨_, carries_packet _, exec_hash_of_length msg s hlen⟩, exec_hash_of_length_ne msg s⟩

/-- A command with one reply for all states gives one response packet at all states, and changes nothing else. -/
theorem response_of_reply {i : Instr} (h : ∃ r, ∀ s, exec i s = .next (s.respond r)) :
    ∃ q, ∀ s : State, exec i s = .next { s with responses := s.responses ++ [q] } := by
  obtain ⟨r, hr⟩ := h
  exact ⟨r.packet, hr⟩

/-- Settles O32: each of the four commands has one reply for all states. -/
theorem statelessCommands : Obligations.StatelessCommands := by
  intro key msg buf off v0 v1 v2 v3 x b i hi
  simp only [List.mem_cons, List.not_mem_nil, or_false] at hi
  obtain rfl | rfl | rfl | rfl := hi
  · exact response_of_reply (exec_hash key msg)
  · exact response_of_reply (exec_round v0 v1 v2 v3)
  · exact response_of_reply (exec_ldle64 buf off)
  · exact response_of_reply (exec_rotl x b)

end Sys2Proof.Proofs
end

section
/-! Malformed packets (spec/60_exceptions.md R97): exactly those that R55 names do not decode, and each is answered
IllegalCommand. -/

namespace Sys2Proof.Proofs

open Sys2Proof.Machine Sys2Proof.Laws

/-- R56's table has no command for exactly the packets that R97 names. -/
theorem decodeR56_eq_none_iff (p : Bytes) : decodeR56 p = none ↔ IllegalPacket p := by
  rw [← decode_toOption]
  match p with
  | [] => exact iff_of_true rfl trivial
  | op :: body =>
    rw [decode]
    split
    next hop => obtain rfl : op = 0x01 := BitVec.eq_of_toNat_eq hop; simp [decodeNew_toOption, IllegalPacket]
    next hop => obtain rfl : op = 0x02 := BitVec.eq_of_toNat_eq hop; simp [Except.toOption, IllegalPacket]
    next hop => obtain rfl : op = 0x03 := BitVec.eq_of_toNat_eq hop; simp [decodeZ_toOption, IllegalPacket]
    next hop => obtain rfl : op = 0x04 := BitVec.eq_of_toNat_eq hop; simp [Except.toOption, IllegalPacket]
    next hop => obtain rfl : op = 0x05 := BitVec.eq_of_toNat_eq hop; simp [Except.toOption, IllegalPacket]
    next hop => obtain rfl : op = 0x06 := BitVec.eq_of_toNat_eq hop; simp [decodeZ_toOption, IllegalPacket]
    next hop =>
      obtain rfl : op = 0x07 := BitVec.eq_of_toNat_eq hop
      cases body with
      | nil => simp [decodeHash_toOption, IllegalPacket]
      | cons klen rest => simp [decodeHash_toOption, IllegalPacket, Nat.add_comm 2]
    next hop => obtain rfl : op = 0x08 := BitVec.eq_of_toNat_eq hop; simp [decodeRound_toOption, IllegalPacket]
    next hop => obtain rfl : op = 0x09 := BitVec.eq_of_toNat_eq hop; simp [decodeLdle64_toOption, IllegalPacket]
    next hop => obtain rfl : op = 0x0a := BitVec.eq_of_toNat_eq hop; simp [decodeRotl_toOption, IllegalPacket, imp_iff_not_or]
    next => simp [Except.toOption, IllegalPacket]

theorem decode_of_decodeR56 {p : Bytes} {i : Instr} (h : decodeR56 p = some i) : decode p = .ok i := by
  rw [← decode_toOption] at h
  cases hd : decode p with
  | ok j => rw [hd] at h; exact congrArg _ (Option.some.inj h)
  | error e => rw [hd] at h; cases h

theorem runPacket_of_malformed {p : Bytes} (h : decodeR56 p = none) (s : State) :
    runPacket p s = .next (s.respond (.error .illegalCommand)) := by
  rw [← decode_toOption] at h
  cases hd : decode p with
  | ok j => rw [hd] at h; cases h
  | error e => rw [runPacket, hd]; rfl

/-- Settles O4: a packet that the table has no command for raises, and for every other it has one. -/
theorem illegalPacketsRaise : Obligations.IllegalPacketsRaise := by
  refine ⟨fun s p rest hpending hillegal => ?_, fun p hlegal => ?_⟩
  · exact (step_of_packet hpending).trans (runPacket_of_malformed ((decodeR56_eq_none_iff p).mpr hillegal) _)
  · rw [← decodeR56_eq_none_iff, ← Ne, Option.ne_none_iff_exists'] at hlegal
    exact hlegal.imp fun _ => decode_of_decodeR56

end Sys2Proof.Proofs
end

section
/-! The status of a response (spec/60_exceptions.md R95, R96, R100, R102): commands and packets alike are answered with
the status of R95's table, and unless it is OK nothing else changes. -/

namespace Sys2Proof.Proofs

open Sys2Proof.Machine Sys2Proof.Laws

/-- From `s` the machine went on and answered `status`; unless that is OK, the status byte is all of the response and
nothing else has changed (R96). -/
def Answered (s : State) (status : Byte) (r : Result) : Prop :=
  ∃ t data, r = .next t ∧ t.responses = s.responses ++ [status :: data] ∧
    (status ≠ 0x00 → t = { s with responses := s.responses ++ [[status]] })

theorem answered_of_raise (s : State) (e : Exception) : Answered s e.status (.next (s.respond (.error e))) :=
  ⟨_, [], rfl, rfl, fun _ => rfl⟩

/-- R95: a command is answered with the status its row of the table gives it. -/
theorem exec_answered (i : Instr) (s : State) : Answered s (statusOf i s) (exec i s) := by
  obtain ⟨e, hstatus, h⟩ | ⟨u, data, c⟩ := exec_cases i s
  · rw [hstatus, h]
    exact answered_of_raise s e
  · rw [c.status, c.exec]
    refine ⟨_, data.flatMap wordBytes, rfl, ?_, fun hne => absurd rfl hne⟩
    rw [State.respond_responses, c.responses]
    rfl

/-- R95, R104: a packet is answered IllegalCommand if it does not decode, else as its command is. -/
theorem runPacket_answered (p : Bytes) (s : State) : Answered s (packetStatus p s) (runPacket p s) := by
  rw [packetStatus]
  cases h : decodeR56 p with
  | none =>
    rw [runPacket_of_malformed h]
    exact answered_of_raise s .illegalCommand
  | some i =>
    rw [runPacket_of_decode (decode_of_decodeR56 h)]
    exact exec_answered i s

/-- R102: which exception a command raises depends on the command and on HVALID alone. -/
theorem statusOf_of_hvalid_eq (i : Instr) {s u : State} (h : u.hvalid = s.hvalid) : statusOf i u = statusOf i s := by
  unfold statusOf
  rw [h]

theorem packetStatus_setPending (p : Bytes) (s : State) (rest : List HostInput) :
    packetStatus p (s.setPending rest) = packetStatus p s := by
  unfold packetStatus
  cases decodeR56 p with
  | none => rfl
  | some i => exact statusOf_of_hvalid_eq i rfl

theorem step_answered {s : State} {p : Bytes} {rest : List HostInput} (h : s.pending = .packet p :: rest) :
    Answered (s.setPending rest) (packetStatus p s) (step s) := by
  rw [step_of_packet h, ← packetStatus_setPending p s rest]
  exact runPacket_answered p _

/-- There is one answer, so a status read off the port is the one that was answered. -/
theorem Answered.status_eq {s t : State} {status status' : Byte} {data : Bytes} (a : Answered s status (.next t))
    (h : t.responses = s.responses ++ [status' :: data]) : status' = status := by
  obtain ⟨u, data', hu, hresponses, -⟩ := a
  cases hu
  rw [h] at hresponses
  exact (List.cons.inj (List.cons.inj (List.append_cancel_left hresponses)).1).1

/-- R96: an exception's response is its status alone, and nothing else has happened. -/
theorem Answered.eq_of_ne_ok {s : State} {status : Byte} {r : Result} (a : Answered s status r) (hne : status ≠ 0x00) :
    r = .next { s with responses := s.responses ++ [[status]] } := by
  obtain ⟨t, -, rfl, -, hraised⟩ := a
  rw [hraised hne]

/-- R96 as the host sees it: a response that is not OK says that no register was written. -/
theorem Answered.unchanged {s t : State} {status status' : Byte} {data : Bytes} (a : Answered s status (.next t))
    (h : t.responses = s.responses ++ [status' :: data]) (hne : status' ≠ 0x00) :
    t = { s with responses := s.responses ++ [[status']] } := by
  obtain rfl := a.status_eq h
  exact Host.Outcome.next.inj (a.eq_of_ne_ok hne)

/-- Settles O33: a command is answered where it is executed, and a packet where it has been taken off the port. -/
theorem raisingWritesNothing : Obligations.RaisingWritesNothing := by
  refine ⟨fun i s t status data hexec => ?_, fun s t p rest status data hpending hstep => ?_⟩
  · exact Answered.unchanged (hexec ▸ exec_answered i s)
  · exact Answered.unchanged (hstep ▸ step_answered hpending)

/-- Settles O34. -/
theorem statusFollowsCauseTable : Obligations.StatusFollowsCauseTable := by
  intro s p rest hpending
  obtain ⟨t, data, hstep, hresponses, -⟩ := step_answered hpending
  exact ⟨t, data, hstep, hresponses⟩

/-- R100 in the cause table. -/
theorem statusOf_of_needs_hasher (s : State) (chunk : Bytes) :
    ∀ i ∈ [Instr.reset, .feed chunk, .feedt chunk, .result], statusOf i s = if s.hvalid then 0x00 else 0x04 := by
  simp [statusOf]

/-- Settles O35, by HVALID: the status is NoHasher's, or it is OK. -/
theorem noHasherExactly : Obligations.NoHasherExactly := by
  intro s chunk i hi
  have answered := exec_answered i s
  rw [statusOf_of_needs_hasher s chunk i hi] at answered
  refine ⟨fun hinvalid => ?_, fun hvalid => ?_⟩
  · rw [hinvalid] at answered
    exact answered.eq_of_ne_ok (by decide)
  · rw [hvalid] at answered
    obtain ⟨t, data, h, hresponses, -⟩ := answered
    exact ⟨t, data, h, hresponses⟩

/-- Settles O36: the status is the same wherever HVALID is, and a command that raised has not written HVALID. -/
theorem raisingRepeats : Obligations.RaisingRepeats := by
  intro i s t status hexec hne hresponses
  have answered : Answered s (statusOf i s) (.next t) := hexec ▸ exec_answered i s
  have hstatus : status = statusOf i s := answered.status_eq hresponses
  have hunchanged : t = { s with responses := s.responses ++ [[status]] } := answered.unchanged hresponses hne
  have raises (u : State) (hu : u.hvalid = s.hvalid) :
      exec i u = .next { u with responses := u.responses ++ [[status]] } := by
    have again := exec_answered i u
    rw [statusOf_of_hvalid_eq i hu, ← hstatus] at again
    exact again.eq_of_ne_ok hne
  exact ⟨raises t (hunchanged ▸ rfl), raises⟩

end Sys2Proof.Proofs
end

section
/-! Every step goes on (spec/60_exceptions.md R101, R106, R109): the idle core, the reset event, and every packet. -/

namespace Sys2Proof.Proofs

open Sys2Proof.Machine Sys2Proof.Laws

/-- Settles O8. -/
theorem idleKeepsState : Obligations.IdleKeepsState := by
  intro s h
  rw [step, h]

/-- Settles O10: a step by the input it takes, and a command by R18's and R44's frame of every command. -/
theorem nothingStops : Obligations.NothingStops := by
  refine ⟨fun s => ?_, fun i s => ?_⟩
  · match hpending : s.pending with
    | [] => exact ⟨s, idleKeepsState s hpending⟩
    | .hardwareReset :: rest => exact ⟨_, step_of_pending hpending⟩
    | .packet p :: rest =>
      obtain ⟨t, -, hstep, -⟩ := step_answered hpending
      exact ⟨t, hstep⟩
  · obtain ⟨t, hexec, -⟩ := exec_writes i s
    obtain ⟨-, hport, hfree, q, hresponses⟩ := hvalid_port_of_exec hexec
    exact ⟨t, q, hexec, hresponses, hport, hfree⟩

end Sys2Proof.Proofs
end

section
/-! The hardware reset event (spec/70_reset_and_hazards.md R111, R112): taken off the port like any input, it
leaves no hasher behind. -/

namespace Sys2Proof.Proofs

open Sys2Proof.Machine Sys2Proof.Laws

/-- Settles O11: the event clears HVALID, and with no hasher R100 answers for the four commands. -/
theorem hardwareResetClearsValid : Obligations.HardwareResetClearsValid := by
  intro s rest hpending
  have hinvalid : (s.setPending rest).hardwareReset.hvalid = false := State.hardwareReset_hvalid _
  exact ⟨_, step_of_pending hpending, hinvalid, rfl, rfl, exec_of_no_hasher hinvalid⟩

end Sys2Proof.Proofs
end
